-- ==== Sys2Proof/Word.lean ====
section
/-! DEFINITION. The bit-vector types of the GVC and the fixed-size collections made of them
(00_scope.md R4, R6; 10_state.md §1). -/

namespace Sys2Proof

/-- u8: one byte of host memory, a selector, or a shuffle control byte (R6). -/
abbrev Byte := BitVec 8

/-- u32: a codec value, the command word, or a 32-bit register (R6). -/
abbrev Word := BitVec 32

/-- The 64-bit data value of a host register access (R40, R41). IN_PTR, OUT_PTR and FADDR, AW bits wide,
are held in this type with the bits at and above AW zero. -/
abbrev Data := BitVec 64

/-- A quad: four unsigned 32-bit integers v0..v3, or the four result registers (R4). -/
abbrev Quad := Vector Word 4

/-- Sixteen bytes: a shuffle control, GVDECV's payload window, or a shuffle result (R11, R33). -/
abbrev Bytes16 := Vector Byte 16

/-- The shuffle-mask table: 256 entries of sixteen control bytes (R33). -/
abbrev Table := Vector Bytes16 256

end Sys2Proof
end

