-- ==== Sys2Proof/Config.lean ====
section
/-! DEFINITION. What the platform fixes for one GVC (00_scope.md R1-R3), the defaults of those parameters, and the
values the model names where the spec leaves a value unspecified (each with its log entry). -/

namespace Sys2Proof

/-- The legal values of the parameter AW (R1). -/
inductive AddrWidth where
  | w32
  | w64
  deriving DecidableEq, Repr

/-- AW as a number of bits (R1). -/
def AddrWidth.bits : AddrWidth → Nat
  | .w32 => 32
  | .w64 => 64

/-- The parameters a GVC is built with. They are carried in State, so that a statement about every state is a
statement about all their values (log 4). -/
structure Params where
  /-- AW (R1). -/
  addrWidth : AddrWidth
  /-- HAS_SIMD (R2). -/
  hasSimd : Bool
  /-- Bits [6:0] of ZERO_FILL, which R3 leaves free. -/
  zeroFillLow : BitVec 7
  /-- REG_BASE, the bus address of the register window (10_state.md R39). The spec gives bus addresses no width. -/
  regBase : Nat
  deriving DecidableEq, Repr

/-- AW (R1). -/
def Params.aw (p : Params) : Nat := p.addrWidth.bits

/-- ZERO_FILL: bit 7 is 1, the other bits are the parameter's (R3). -/
def Params.zeroFill (p : Params) : Byte := 1#1 ++ p.zeroFillLow

/-- The default parameters: AW = 64 (R1), HAS_SIMD = 1 (R2), ZERO_FILL = 0x80 (R3). REG_BASE = 0 is a DESIGN CHOICE
(log 11), unsafe: R39 leaves it open. -/
def Config.defaultParams : Params where
  addrWidth := .w64
  hasSimd := true
  zeroFillLow := 0
  regBase := 0

/-- The byte that an address of host memory holds while nothing has written it: the platform's value, one free draw per
address (20_memory.md R69; 92_eei_decisions.md D32; log 3). It has no body, so a statement holds for every draw. -/
opaque Config.unwrittenByte : Nat → Byte

/-- The reset value of V0..V3, R0..R3 and LEN. DESIGN CHOICE (log 1), unsafe: R38 leaves it unspecified. -/
def Config.resetWord : Word := 0

/-- The reset value of IN_PTR and OUT_PTR. DESIGN CHOICE (log 1), unsafe: R38 leaves it unspecified. -/
def Config.resetPointer : Data := 0

/-- TBL's contents at reset. DESIGN CHOICE (log 2), unsafe: R35 leaves them unspecified, and no command reads them
while TV = 0. -/
def Config.resetTable : Table := Vector.replicate 256 (Vector.replicate 16 0)

end Sys2Proof
end

