-- ==== Sys2Proof/Machine/Operands.lean ====
section
/-! DEFINITION. The codec's arithmetic: byte lengths, selector fields, offsets, the block of a quad, the table entry of a
selector, the shuffle and the lanes (00_scope.md R11, R14, R15; R100, R102, R120, R140). -/

namespace Sys2Proof.Machine

/-- `byte_length(v)`: the smallest L in 1..4 with v < 2^(8L), in R14's closed form. -/
def byteLength (v : Word) : Nat :=
  if v ≤ 0xFF#32 then 1
  else if v ≤ 0xFFFF#32 then 2
  else if v ≤ 0xFFFFFF#32 then 3
  else 4

/-- Byte i of a value, v[8i+7 : 8i] (R100). -/
def wordByte (v : Word) (i : Nat) : Byte := v.extractLsb' (8 * i) 8

/-- The low n bytes of a value, low byte first (R100). -/
def littleEndianBytes (v : Word) (n : Nat) : List Byte := (List.range n).map (wordByte v)

/-- `field(s, k)` for k in 0..3; field(s, 0) is s[7:6] (R15, R79). -/
def selectorField (s : Byte) (k : Nat) : BitVec 2 := s.extractLsb' (6 - 2 * k) 2

/-- `Lk(s) = field(s, k) + 1` (R15; 90_conflicts.md C4). -/
def valueLength (s : Byte) (k : Nat) : Nat := (selectorField s k).toNat + 1

/-- `offk(s)`: where the bytes of value k start in the payload (R15). -/
def payloadOffset (s : Byte) : Nat → Nat
  | 0 => 0
  | k + 1 => payloadOffset s k + valueLength s k

/-- `P(s) = L0 + L1 + L2 + L3` (R15). -/
def payloadLength (s : Byte) : Nat := payloadOffset s 4

/-- `BL(s) = 1 + P(s)` (R15, R83). -/
def blockLength (s : Byte) : Nat := 1 + payloadLength s

/-- The selector byte of a quad (R102). -/
def selectorOf (v : Quad) : Byte :=
  BitVec.ofNat 8 ((byteLength v[0] - 1) * 64 + (byteLength v[1] - 1) * 16 + (byteLength v[2] - 1) * 4
    + (byteLength v[3] - 1))

/-- The payload bytes of a quad: each value's minimal little-endian bytes, v0 first (R80, R100). -/
def payloadOf (v : Quad) : List Byte :=
  littleEndianBytes v[0] (byteLength v[0]) ++ littleEndianBytes v[1] (byteLength v[1])
    ++ littleEndianBytes v[2] (byteLength v[2]) ++ littleEndianBytes v[3] (byteLength v[3])

/-- The block of a quad: the selector, then the payload (R78, R100). -/
def blockOf (v : Quad) : List Byte := selectorOf v :: payloadOf v

/-- `BL` of GVENC: 1 + L0 + L1 + L2 + L3 with Lk = byte_length(V[k]) (R100). -/
def quadBlockLength (v : Quad) : Nat :=
  1 + byteLength v[0] + byteLength v[1] + byteLength v[2] + byteLength v[3]

/-- Control byte b of lane k in `Entry(s)`: a payload index, or ZERO_FILL past the value's length (R120). -/
def controlByte (zeroFill s : Byte) (k b : Nat) : Byte :=
  if b < valueLength s k then BitVec.ofNat 8 (payloadOffset s k + b) else zeroFill

/-- `Entry(s)`: byte 4k+b belongs to lane k, byte b of the lane (R120). -/
def tableEntry (zeroFill s : Byte) : Bytes16 :=
  Vector.ofFn fun j : Fin 16 => controlByte zeroFill s (j.val / 4) (j.val % 4)

/-- All 256 entries (R124). -/
def shuffleTable (zeroFill : Byte) : Table :=
  Vector.ofFn fun s : Fin 256 => tableEntry zeroFill (BitVec.ofNat 8 s.val)

/-- One output byte of the shuffle: bit 7 of the control gives zero, else its bits [3:0] index the window (R11). -/
def shuffleByte (w : Bytes16) (ctl : Byte) : Byte :=
  if ctl[7] then 0 else w[(ctl.extractLsb' 0 4).toNat]'((ctl.extractLsb' 0 4).isLt)

/-- `Shuffle16(W, C)` (R11; the PSHUFB rule, log 14). -/
def shuffle16 (w ctl : Bytes16) : Bytes16 := ctl.map (shuffleByte w)

/-- Lane k of sixteen bytes: { O[4k+3], O[4k+2], O[4k+1], O[4k] } (R126, R140). -/
def laneWord (o : Bytes16) (k : Fin 4) : Word :=
  o[4 * k.val + 3] ++ o[4 * k.val + 2] ++ o[4 * k.val + 1] ++ o[4 * k.val]

/-- The four lanes as a quad (R126, R141). -/
def lanes (o : Bytes16) : Quad := Vector.ofFn (laneWord o)

end Sys2Proof.Machine
end

