-- ==== Sys2Proof/Syntax.lean ====
section
/-! DEFINITION. The five commands of the GVC, one constructor per row of spec/opcode_table.json
(30_encoding.md R71). -/

namespace Sys2Proof

/-- The commands. Only GVTBRD has an operand, the table index `sel` = CMD[15:8], an unsigned byte (R75). -/
inductive Instr where
  /-- GVENC: encode V0..V3 and append the block at OUT_PTR (R100). -/
  | gvenc
  /-- GVDECS: scalar-decode the block at IN_PTR (R110). -/
  | gvdecs
  /-- GVTBL: build the shuffle-mask table (R124). -/
  | gvtbl
  /-- GVTBRD s: read table entry s into R0..R3 (R126). -/
  | gvtbrd (sel : Byte)
  /-- GVDECV: SIMD-decode the block at IN_PTR (R141). -/
  | gvdecv
  deriving DecidableEq, Repr

end Sys2Proof
end

