-- ==== Sys2Proof/WellFormed.lean ====
section
/-! DEFINITION. Which commands a GVC with given parameters has (30_encoding.md R72, R73). -/

namespace Sys2Proof

/-- A command is well formed for HAS_SIMD = `hasSimd` when the GVC has it: GVDECV needs the SIMD path, the other four are
always legal, and every value of GVTBRD's operand is a legal index (R72, R75). -/
def Instr.wellFormed (hasSimd : Bool) : Instr → Bool
  | .gvenc => true
  | .gvdecs => true
  | .gvtbl => true
  | .gvtbrd _ => true
  | .gvdecv => hasSimd

end Sys2Proof
end

