-- ==== Sys2Proof/Decode.lean ====
section
/-! DEFINITION. The command word: its fields, its decoder over all 2^32 words, and its encoder
(30_encoding.md R70-R75). -/

namespace Sys2Proof

/-- The cases in which a command word is illegal (R73), one name each. All four raise ILLEGAL_CMD. -/
inductive IllegalWord where
  /-- OP = 0x0 or OP in 0x6..0xF. -/
  | reservedOpcode
  /-- RSV0 or RSV1 is not zero. -/
  | reservedBits
  /-- SEL is not zero and the opcode is not GVTBRD's. -/
  | selNotZero
  /-- GVDECV while HAS_SIMD = 0. -/
  | simdAbsent
  deriving DecidableEq, Repr

/-- OP = w[3:0] (R70). -/
def opField (w : Word) : BitVec 4 := w.extractLsb' 0 4

/-- RSV0 = w[7:4] (R70). -/
def rsv0Field (w : Word) : BitVec 4 := w.extractLsb' 4 4

/-- SEL = w[15:8] (R70, R75). -/
def selField (w : Word) : Byte := w.extractLsb' 8 8

/-- RSV1 = w[31:16] (R70). -/
def rsv1Field (w : Word) : BitVec 16 := w.extractLsb' 16 16

/-- A command with no operand: SEL and both reserved fields must be zero (R70, R73). -/
def decodePlain (w : Word) (i : Instr) : Except IllegalWord Instr :=
  if rsv0Field w ≠ 0 ∨ rsv1Field w ≠ 0 then .error .reservedBits
  else if selField w ≠ 0 then .error .selNotZero
  else .ok i

/-- GVTBRD: both reserved fields must be zero, SEL is the operand (R70, R75). -/
def decodeTableRead (w : Word) : Except IllegalWord Instr :=
  if rsv0Field w ≠ 0 ∨ rsv1Field w ≠ 0 then .error .reservedBits
  else .ok (.gvtbrd (selField w))

/-- `Decode(w)` of R72, total over all words: a command, or the case of R73 that makes the word illegal. -/
def decode (hasSimd : Bool) (w : Word) : Except IllegalWord Instr :=
  match (opField w).toNat with
  | 1 => decodePlain w .gvenc
  | 2 => decodePlain w .gvdecs
  | 3 => decodePlain w .gvtbl
  | 4 => decodeTableRead w
  | 5 => if hasSimd then decodePlain w .gvdecv else .error .simdAbsent
  | _ => .error .reservedOpcode

/-- A command word from OP and SEL, the reserved fields zero (R70): `rsv1 ++ sel ++ rsv0 ++ op`. -/
def commandWord (op : BitVec 4) (sel : Byte) : Word := 0#16 ++ sel ++ 0#4 ++ op

/-- The one word of each command (R71; spec/opcode_table.json, match). -/
def encode : Instr → Word
  | .gvenc => commandWord 0x1 0
  | .gvdecs => commandWord 0x2 0
  | .gvtbl => commandWord 0x3 0
  | .gvtbrd s => commandWord 0x4 s
  | .gvdecv => commandWord 0x5 0

/-- The host's view of the decoder: the command in the low 32 of `w`'s `nbits` bits, with the default HAS_SIMD = 1
(log 4, log 15). -/
def decodeTableWord (nbits w : Nat) : Option Instr :=
  match decode Config.defaultParams.hasSimd (BitVec.ofNat 32 (w % 2 ^ nbits)) with
  | .ok i => some i
  | .error _ => none

/-! Each constructor's decoding, on a word written out bit by bit from spec/opcode_table.json (`encoding`). -/

theorem decode_word_gvenc (b : Bool) : decode b 0b00000000000000000000000000000001#32 = .ok .gvenc := rfl
theorem decode_word_gvdecs (b : Bool) : decode b 0b00000000000000000000000000000010#32 = .ok .gvdecs := rfl
theorem decode_word_gvtbl (b : Bool) : decode b 0b00000000000000000000000000000011#32 = .ok .gvtbl := rfl
theorem decode_word_gvtbrd (b : Bool) :
    decode b 0b00000000000000000100000100000100#32 = .ok (.gvtbrd 0x41) := rfl
theorem decode_word_gvdecv : decode true 0b00000000000000000000000000000101#32 = .ok .gvdecv := rfl
theorem decode_word_gvdecv_absent :
    decode false 0b00000000000000000000000000000101#32 = .error .simdAbsent := rfl

end Sys2Proof
end

