-- ==== Sys2Proof/Machine/State.lean ====
section
/-! DEFINITION. The state of the GVC, of the memory and platform it works with, and of the host's side of the interface,
as plain data (10_state.md, 20_memory.md §1, 70_reset_and_hazards.md R170). -/

namespace Sys2Proof.Machine

/-- STATUS.FCODE, the cause of the first fault since reset (60_exceptions.md R150). Codes 5 to 15 are never produced. -/
inductive FaultCode where
  /-- 0, NONE: no fault has occurred since reset. -/
  | noFault
  /-- 1, ILLEGAL_CMD: the CMD word is illegal. -/
  | illegalCmd
  /-- 2, TABLE_NOT_BUILT: GVDECV or GVTBRD while TV = 0. -/
  | tableNotBuilt
  /-- 3, READ_FAULT: a byte a decoder must read is not accessible. -/
  | readFault
  /-- 4, WRITE_FAULT: a byte GVENC must write is not accessible. -/
  | writeFault
  deriving DecidableEq, Repr

/-- The sixteen registers of the register map (10_state.md R39). -/
inductive Reg where
  | cmd
  | status
  | caps
  | faddr
  | fcmd
  | v (k : Fin 4)
  | r (k : Fin 4)
  | len
  | inPtr
  | outPtr
  deriving DecidableEq, Repr

/-- One range of host addresses and what the platform's predicates Readable and Writable say of it
(20_memory.md R52, R53; log 5). -/
structure Region where
  base : Nat
  size : Nat
  readable : Bool
  writable : Bool
  deriving DecidableEq, Repr

/-- One action at the GVC's boundary, in the order the host and the platform take them (20_memory.md R63; log 6). -/
inductive Action where
  /-- `HostWrite(off, d)` (R40); a write to CMD runs one command. -/
  | regWrite (off : Nat) (d : Data)
  /-- `HostRead(off)`; the host records the value (R41, R76). -/
  | regRead (off : Nat)
  /-- A host write at a bus address: `HostWrite` where it lies in the register window at REG_BASE (R39; log 11). -/
  | busWrite (a : Nat) (d : Data)
  /-- A host read at a bus address: `HostRead`, recorded, where it lies in the register window (R39; log 11). -/
  | busRead (a : Nat)
  /-- The host writes a byte of its own memory (R37, R63). -/
  | memWrite (a : Nat) (b : Byte)
  /-- The host reads a byte of its own memory and records it (R42, R63). -/
  | memRead (a : Nat)
  /-- The platform's reset input (R170, R171). -/
  | reset
  deriving DecidableEq, Repr

/-- Host memory (R50): the bytes that have been written, by strictly rising address (log 3). -/
abbrev Memory := List Host.Cell

/-- The whole state. The comment on each field names the register and the rule. -/
structure State where
  /-- The platform's parameters (R1-R3). No step changes them. -/
  params : Params
  /-- The platform's Readable and Writable (R52, R53). No step changes them. -/
  regions : List Region
  /-- STATUS.FAULT (R24). -/
  fault : Bool
  /-- STATUS.TV (R24). -/
  tableValid : Bool
  /-- STATUS.FCODE (R24, R150). -/
  fcode : FaultCode
  /-- FADDR (R26). -/
  faddr : Data
  /-- FCMD (R26). -/
  fcmd : Word
  /-- V0..V3 (R28). -/
  v : Quad
  /-- R0..R3 (R29). -/
  r : Quad
  /-- LEN (R30). -/
  len : Word
  /-- IN_PTR (R31). -/
  inPtr : Data
  /-- OUT_PTR (R32). -/
  outPtr : Data
  /-- TBL (R33). -/
  tbl : Table
  /-- Host memory (R50). -/
  mem : Memory
  /-- The host's actions still to be taken, first one first (R76, R180). The model's own field (log 6). -/
  script : List Action
  /-- The values the host has recorded, oldest first (R76). The model's own field (log 6). -/
  observed : List Data
  deriving DecidableEq, Repr

/-- What stops the model. The GVC's own faults (R150) are no such stop: they are next states with STATUS.FAULT = 1. -/
inductive Fault where
  /-- The HOST accessed memory at an address `a` ≥ 2^AW, which does not exist (R50). Raised by the actions `memWrite`
  and `memRead` only. Safe: the spec gives no such access a meaning (log 7). -/
  | noSuchHostAddress (a : Nat)
  deriving DecidableEq, Repr

/-- A command with no meaning in the model. -/
inductive Refusal where
  /-- Raised by exec's arm of a command that has no meaning yet. Safe. No arm is left in this model. -/
  | notModelled (mnemonic : String)
  deriving DecidableEq, Repr

/-- The GVC right after the platform's reset (R170), with the default parameters, nothing listed in memory and no host
action waiting. STATUS, FADDR and FCMD are the spec's; V, R, LEN, IN_PTR, OUT_PTR and TBL are the model's named
values (log 1, log 2); the regions admit the whole address space (log 5). -/
def State.reset : State where
  params := Config.defaultParams
  regions := [{ base := 0, size := 2 ^ 64, readable := true, writable := true }]
  fault := false
  tableValid := false
  fcode := .noFault
  faddr := 0
  fcmd := 0
  v := Vector.replicate 4 Config.resetWord
  r := Vector.replicate 4 Config.resetWord
  len := Config.resetWord
  inPtr := Config.resetPointer
  outPtr := Config.resetPointer
  tbl := Config.resetTable
  mem := []
  script := []
  observed := []

end Sys2Proof.Machine
end

