-- ==== Sys2Proof/Machine/Flags.lean ====
section
/-! DEFINITION. The words of the two read-only registers that are made of fields: STATUS (10_state.md R24) and CAPS (R25).
The GVC has no condition codes (R22). -/

namespace Sys2Proof.Machine

/-- The number of a fault cause in STATUS.FCODE (60_exceptions.md R150). -/
def faultNumber : FaultCode → BitVec 4
  | .noFault => 0
  | .illegalCmd => 1
  | .tableNotBuilt => 2
  | .readFault => 3
  | .writeFault => 4

/-- STATUS: FCODE in [7:4], [3:2] reserved, TV in [1], FAULT in [0], [31:8] reserved (R24). -/
def statusWord (s : State) : Word :=
  0#24 ++ faultNumber s.fcode ++ 0#2 ++ BitVec.ofBool s.tableValid ++ BitVec.ofBool s.fault

/-- CAPS: ZFILL in [23:16], AWIDTH in [15:8], SIMD in [0], the rest reserved (R25). -/
def capsWord (p : Params) : Word :=
  0#8 ++ p.zeroFill ++ BitVec.ofNat 8 p.aw ++ 0#7 ++ BitVec.ofBool p.hasSimd

end Sys2Proof.Machine
end

