-- ==== Sys2Proof/Machine/Ops.lean ====
section
/-! DEFINITION. The named operations over memory and registers: byte reads and writes, the platform's predicates, the
register map, fault entry (60_exceptions.md R152) and reset (70_reset_and_hazards.md R170). -/

namespace Sys2Proof.Machine

/-! ## Host memory -/

/-- The canonical form of a memory: one entry for each byte that has been written, by strictly rising address. An
unlisted address holds no written byte, so no entry says the same as its absence (log 3). -/
abbrev Memory.wf (m : Memory) : Prop := m.Pairwise fun c d => c.1 < d.1

/-- The byte at address a: the one written there, else the platform's (R50, R69). -/
def Memory.read (m : Memory) (a : Nat) : Byte :=
  match m with
  | [] => Config.unwrittenByte a
  | c :: rest => if c.1 = a then c.2 else Memory.read rest a

/-- Store byte b at address a, keeping the canonical form. -/
def Memory.write (m : Memory) (a : Nat) (b : Byte) : Memory :=
  match m with
  | [] => [(a, b)]
  | c :: rest =>
    if c.1 < a then c :: Memory.write rest a b
    else if c.1 = a then (a, b) :: rest
    else (a, b) :: c :: rest

/-- Store bytes at ascending addresses from a (R56, R100). -/
def Memory.writeBytes (m : Memory) (a : Nat) : List Byte → Memory
  | [] => m
  | b :: bs => Memory.writeBytes (Memory.write m a b) (a + 1) bs

/-- `MemRead(a, n)`: the little-endian value of n bytes at ascending addresses (R9), its access checks made beforehand
by `firstInaccessible`. -/
def Memory.readValue (m : Memory) (a : Nat) : Nat → Nat
  | 0 => 0
  | n + 1 => (Memory.read m a).toNat + 256 * Memory.readValue m (a + 1) n

/-- GVDECV's window: the sixteen bytes from address a (R56, R143). -/
def Memory.window (m : Memory) (a : Nat) : Bytes16 :=
  Vector.ofFn fun j : Fin 16 => Memory.read m (a + j.val)

/-! ## The platform's predicates -/

/-- Address a lies in the region. -/
def Region.covers (g : Region) (a : Nat) : Bool := decide (g.base ≤ a) && decide (a < g.base + g.size)

/-- a < 2^AW and `Readable(a)` (R52). -/
def readableAt (s : State) (a : Nat) : Bool :=
  decide (a < 2 ^ s.params.aw) && s.regions.any fun g => g.readable && g.covers a

/-- a < 2^AW and `Writable(a)` (R53). -/
def writableAt (s : State) (a : Nat) : Bool :=
  decide (a < 2 ^ s.params.aw) && s.regions.any fun g => g.writable && g.covers a

/-- The lowest address in [a, a+n) that `ok` denies, the addresses being tried in ascending order (R153). -/
def firstInaccessible (ok : Nat → Bool) (a : Nat) : Nat → Option Nat
  | 0 => none
  | n + 1 => if ok a then firstInaccessible ok (a + 1) n else some a

/-! ## Register widths and the register map -/

/-- `trunc_AW(n)` in the 64-bit type the pointers are held in (R7, R54). -/
def truncAW (p : Params) (n : Nat) : Data := BitVec.ofNat 64 (n % 2 ^ p.aw)

/-- The register whose slot is at offset `off`, or none (R39). -/
def regAt : Nat → Option Reg
  | 0x00 => some .cmd
  | 0x08 => some .status
  | 0x10 => some .caps
  | 0x18 => some .faddr
  | 0x20 => some .fcmd
  | 0x28 => some (.v 0)
  | 0x30 => some (.v 1)
  | 0x38 => some (.v 2)
  | 0x40 => some (.v 3)
  | 0x48 => some (.r 0)
  | 0x50 => some (.r 1)
  | 0x58 => some (.r 2)
  | 0x60 => some (.r 3)
  | 0x68 => some .len
  | 0x70 => some .inPtr
  | 0x78 => some .outPtr
  | _ => none

/-- The offset of a register's slot (R39). -/
def regOffset : Reg → Nat
  | .cmd => 0x00
  | .status => 0x08
  | .caps => 0x10
  | .faddr => 0x18
  | .fcmd => 0x20
  | .v k => 0x28 + 8 * k.val
  | .r k => 0x48 + 8 * k.val
  | .len => 0x68
  | .inPtr => 0x70
  | .outPtr => 0x78

/-- The number of bytes of the register window (R39). -/
def windowBytes : Nat := 128

/-- The offset of a bus address in the register window at REG_BASE, or none outside it (R39). -/
def windowOffset (p : Params) (a : Nat) : Option Nat :=
  if p.regBase ≤ a ∧ a < p.regBase + windowBytes then some (a - p.regBase) else none

/-- The bus address of a register's slot (R39). -/
def busAddress (p : Params) (reg : Reg) : Nat := p.regBase + regOffset reg

/-- The `HostWrite(off, d)` that an action is, by its offset or by its bus address (R39, R40). -/
def registerWrite (p : Params) (act : Action) : Option (Nat × Data) :=
  match act with
  | .regWrite off d => some (off, d)
  | .regRead _ => none
  | .busWrite a d => (windowOffset p a).map fun off => (off, d)
  | .busRead _ => none
  | .memWrite _ _ => none
  | .memRead _ => none
  | .reset => none

/-- `zext_64(reg)`; CMD reads 0 (R23, R41). -/
def readReg (s : State) : Reg → Data
  | .cmd => 0
  | .status => (statusWord s).setWidth 64
  | .caps => (capsWord s.params).setWidth 64
  | .faddr => s.faddr
  | .fcmd => s.fcmd.setWidth 64
  | .v k => s.v[k].setWidth 64
  | .r k => s.r[k].setWidth 64
  | .len => s.len.setWidth 64
  | .inPtr => s.inPtr
  | .outPtr => s.outPtr

/-- A host write to a register other than CMD: a writable one takes trunc_W(d), a read-only one ignores it (R39, R40).
CMD holds no value (R23). -/
def writeReg (s : State) (d : Data) : Reg → State
  | .cmd => s
  | .status => s
  | .caps => s
  | .faddr => s
  | .fcmd => s
  | .v k => { s with v := s.v.set k (d.setWidth 32) }
  | .r _ => s
  | .len => s
  | .inPtr => { s with inPtr := truncAW s.params d.toNat }
  | .outPtr => { s with outPtr := truncAW s.params d.toNat }

/-- `HostRead(off)` (R41). -/
def hostRead (s : State) (off : Nat) : Data :=
  match regAt off with
  | none => 0
  | some reg => readReg s reg

/-! ## Fault entry, the gate on a stopped GVC, and reset -/

/-- `raise Fault(code, addr)` during the command with word w: FAULT, FCODE, FADDR and FCMD, and nothing else (R152). -/
def raiseFault (code : FaultCode) (addr : Nat) (w : Word) (s : State) : State :=
  { s with fault := true, fcode := code, faddr := truncAW s.params addr, fcmd := w }

/-- The first check of every command: with STATUS.FAULT = 1 it is ignored and no state changes (R153, R154); otherwise
the command leaves the state `k`. -/
def unlessFaulted (s k : State) : Host.Outcome State Fault Refusal := .next (if s.fault then s else k)

/-- The platform's reset of a GVC in any state (R170): the registers as in `State.reset`; CAPS, host memory, the
platform's predicates and the host's own data are not touched. -/
def platformReset (s : State) : State :=
  { State.reset with
    params := s.params, regions := s.regions, mem := s.mem, script := s.script, observed := s.observed }

end Sys2Proof.Machine
end

