-- ==== Sys2Proof/Machine/Encoder.lean ====
section
/-! DEFINITION. GVENC (40_encode.md R100-R105). -/

namespace Sys2Proof.Machine

/-- GVENC on a GVC that is not stopped: check all BL target bytes in ascending order, then write them, advance OUT_PTR
modulo 2^AW and set LEN (R100, R101). -/
def encodeAndAppend (s : State) : State :=
  match firstInaccessible (writableAt s) s.outPtr.toNat (quadBlockLength s.v) with
  | some a => raiseFault .writeFault a (encode .gvenc) s
  | none =>
    { s with
      mem := Memory.writeBytes s.mem s.outPtr.toNat (blockOf s.v)
      outPtr := truncAW s.params (s.outPtr.toNat + quadBlockLength s.v)
      len := BitVec.ofNat 32 (quadBlockLength s.v) }

/-- GVENC (R100). -/
def execGvenc (s : State) : Host.Outcome State Fault Refusal := unlessFaulted s (encodeAndAppend s)

end Sys2Proof.Machine
end

