-- ==== Sys2Proof/Machine/ScalarDecoder.lean ====
section
/-! DEFINITION. GVDECS (41_decode_scalar.md R110-R114). -/

namespace Sys2Proof.Machine

/-- Value k of the block at address p with selector `sel`: its Lk payload bytes, little-endian, zero-extended
(R80, R110). -/
def scalarValue (m : Memory) (p : Nat) (sel : Byte) (k : Fin 4) : Word :=
  BitVec.ofNat 32 (Memory.readValue m (p + 1 + payloadOffset sel k.val) (valueLength sel k.val))

/-- GVDECS on a GVC that is not stopped: the selector byte, then the payload bytes in ascending order; R0..R3 and LEN
(R110, R111). -/
def decodeScalar (s : State) : State :=
  match firstInaccessible (readableAt s) s.inPtr.toNat 1 with
  | some a => raiseFault .readFault a (encode .gvdecs) s
  | none =>
    match firstInaccessible (readableAt s) (s.inPtr.toNat + 1)
        (payloadLength (Memory.read s.mem s.inPtr.toNat)) with
    | some a => raiseFault .readFault a (encode .gvdecs) s
    | none =>
      { s with
        r := Vector.ofFn (scalarValue s.mem s.inPtr.toNat (Memory.read s.mem s.inPtr.toNat))
        len := BitVec.ofNat 32 (blockLength (Memory.read s.mem s.inPtr.toNat)) }

/-- GVDECS (R110). -/
def execGvdecs (s : State) : Host.Outcome State Fault Refusal := unlessFaulted s (decodeScalar s)

end Sys2Proof.Machine
end

