-- ==== Sys2Proof/Machine/ShuffleTable.lean ====
section
/-! DEFINITION. GVTBL and GVTBRD (42_shuffle_table.md R124-R126). -/

namespace Sys2Proof.Machine

/-- GVTBL on a GVC that is not stopped: all 256 entries and TV, in one step (R124). -/
def buildTable (s : State) : State :=
  { s with tbl := shuffleTable s.params.zeroFill, tableValid := true }

/-- GVTBL (R124). -/
def execGvtbl (s : State) : Host.Outcome State Fault Refusal := unlessFaulted s (buildTable s)

/-- GVTBRD on a GVC that is not stopped: TABLE_NOT_BUILT while TV = 0, else entry `sel` as four lane words in R0..R3
(R126). -/
def readTableEntry (sel : Byte) (s : State) : State :=
  if s.tableValid then { s with r := lanes (s.tbl[sel.toNat]'(sel.isLt)) }
  else raiseFault .tableNotBuilt 0 (encode (.gvtbrd sel)) s

/-- GVTBRD (R126). -/
def execGvtbrd (sel : Byte) (s : State) : Host.Outcome State Fault Refusal := unlessFaulted s (readTableEntry sel s)

end Sys2Proof.Machine
end

