-- ==== Sys2Proof/Machine/SimdDecoder.lean ====
section
/-! DEFINITION. GVDECV (43_decode_simd.md R140-R147). -/

namespace Sys2Proof.Machine

/-- GVDECV's results: one shuffle of the window by the selector's table entry into R0..R3, and LEN from the selector's
fields (R141, R144). -/
def shuffleDecode (s : State) : State :=
  { s with
    r := lanes (shuffle16 (Memory.window s.mem (s.inPtr.toNat + 1))
      (s.tbl[(Memory.read s.mem s.inPtr.toNat).toNat]'((Memory.read s.mem s.inPtr.toNat).isLt)))
    len := BitVec.ofNat 32 (blockLength (Memory.read s.mem s.inPtr.toNat)) }

/-- GVDECV on a GVC that is not stopped. The checks in R141's order: ILLEGAL_CMD when HAS_SIMD = 0, TABLE_NOT_BUILT
when TV = 0, then the selector and the fixed sixteen-byte window in ascending order (R143). -/
def decodeSimd (s : State) : State :=
  if s.params.hasSimd = false then raiseFault .illegalCmd 0 (encode .gvdecv) s
  else if s.tableValid = false then raiseFault .tableNotBuilt 0 (encode .gvdecv) s
  else
    match firstInaccessible (readableAt s) s.inPtr.toNat 17 with
    | some a => raiseFault .readFault a (encode .gvdecv) s
    | none => shuffleDecode s

/-- GVDECV (R141). -/
def execGvdecv (s : State) : Host.Outcome State Fault Refusal := unlessFaulted s (decodeSimd s)

end Sys2Proof.Machine
end

