-- ==== Sys2Proof/Machine/Dispatch.lean ====
section
/-! DEFINITION. One arm per command (60_exceptions.md R154). -/

namespace Sys2Proof.Machine

def exec (i : Instr) (s : State) : Host.Outcome State Fault Refusal :=
  match i with
  | .gvenc => Sys2Proof.Machine.execGvenc s
  | .gvdecs => Sys2Proof.Machine.execGvdecs s
  | .gvtbl => Sys2Proof.Machine.execGvtbl s
  | .gvtbrd sel => Sys2Proof.Machine.execGvtbrd sel s
  | .gvdecv => Sys2Proof.Machine.execGvdecv s

end Sys2Proof.Machine
end

