-- ==== Sys2Proof/Machine/Execute.lean ====
section
/-! DEFINITION. What one action at the GVC's boundary does: Execute (60_exceptions.md R154), HostWrite and HostRead
(10_state.md R40, R41), the host's own memory accesses (20_memory.md R63) and the platform's reset
(70_reset_and_hazards.md R170). -/

namespace Sys2Proof.Machine

/-- A CMD write of an illegal word: ignored while FAULT = 1, else ILLEGAL_CMD with FADDR = 0 (R73, R153, R154). -/
def executeIllegal (w : Word) (s : State) : Host.Outcome State Fault Refusal :=
  unlessFaulted s (raiseFault .illegalCmd 0 w s)

/-- `Execute(w)` (R154). The check of STATUS.FAULT stands in `unlessFaulted`, inside every meaning and inside
`executeIllegal`. -/
def execute (w : Word) (s : State) : Host.Outcome State Fault Refusal :=
  match decode s.params.hasSimd w with
  | .ok i => exec i s
  | .error _ => executeIllegal w s

/-- `HostWrite(off, d)` (R40). -/
def hostWrite (off : Nat) (d : Data) (s : State) : Host.Outcome State Fault Refusal :=
  match regAt off with
  | none => .next s
  | some .cmd => execute (d.setWidth 32) s
  | some reg => .next (writeReg s d reg)

/-- The host records a value it has read (R76). -/
def recordValue (d : Data) (s : State) : State := { s with observed := s.observed ++ [d] }

/-- A host write at a bus address. Outside the register window it does not reach the GVC, which keeps its state (R39,
R163; log 11). -/
def busWrite (a : Nat) (d : Data) (s : State) : Host.Outcome State Fault Refusal :=
  match windowOffset s.params a with
  | none => .next s
  | some off => hostWrite off d s

/-- A host read at a bus address. Outside the register window it does not reach the GVC, and nothing is recorded (R39;
log 11). -/
def busRead (a : Nat) (s : State) : Host.Outcome State Fault Refusal :=
  match windowOffset s.params a with
  | none => .next s
  | some off => .next (recordValue (hostRead s off) s)

/-- The host stores a byte in its own memory; an address at or above 2^AW does not exist (R50, log 7). -/
def hostMemWrite (a : Nat) (b : Byte) (s : State) : Host.Outcome State Fault Refusal :=
  if a < 2 ^ s.params.aw then .next { s with mem := Memory.write s.mem a b } else .fault (.noSuchHostAddress a)

/-- The host reads a byte of its own memory and records it (R42, R50, log 7). -/
def hostMemRead (a : Nat) (s : State) : Host.Outcome State Fault Refusal :=
  if a < 2 ^ s.params.aw then .next (recordValue ((Memory.read s.mem a).setWidth 64) s)
  else .fault (.noSuchHostAddress a)

/-- One action, to completion before the next (R42, R63). -/
def performAction (act : Action) (s : State) : Host.Outcome State Fault Refusal :=
  match act with
  | .regWrite off d => hostWrite off d s
  | .regRead off => .next (recordValue (hostRead s off) s)
  | .busWrite a d => busWrite a d s
  | .busRead a => busRead a s
  | .memWrite a b => hostMemWrite a b s
  | .memRead a => hostMemRead a s
  | .reset => .next (platformReset s)

/-- Take the first waiting action; with none left the run has ended and the GVC does nothing and keeps its state
(R163, R180, log 6). -/
def takeNextAction (s : State) : Host.Outcome State Fault Refusal :=
  match s.script with
  | [] => .next s
  | act :: rest => performAction act { s with script := rest }

/-- The host's next action is a CMD write of `w` (R23): how a command comes to be the next thing the GVC runs. -/
def issueCommand (w : Nat) (s : State) : State :=
  { s with script := .regWrite (regOffset .cmd) (BitVec.ofNat 64 w) :: s.script }

end Sys2Proof.Machine
end

