-- ==== Sys2Proof/Machine/Step.lean ====
section
/-! DEFINITION. One step: the next action of the one total order of host actions and commands (20_memory.md R63). -/

namespace Sys2Proof.Machine

/-- One step of the machine. -/
def step (s : State) : Host.Outcome State Fault Refusal := takeNextAction s

/-- s with the command word in the low `nbits` bits of `w` as the host's next CMD write (log 6, log 15). -/
def State.withFetchWord (s : State) (nbits w : Nat) : State := issueCommand (w % 2 ^ nbits) s

end Sys2Proof.Machine
end

