-- ==== Sys2Proof/Machine/Assembler.lean ====
section
/-! DEFINITION. The assembler's lines, what host actions each stands for, and the reader of a line's text
(30_encoding.md R76, R77; log 17). A GVC program is the host's list of actions, so it becomes a State's `script`. -/

namespace Sys2Proof.Machine

/-- One line of a GVC program (R76), or one pseudo-instruction (R77). -/
inductive AsmLine where
  | wr (reg : Reg) (n : Data)
  | rd (reg : Reg)
  | gvenc
  | gvdecs
  | gvtbl
  | gvtbrd (s : Nat)
  | gvdecv
  | encq (a b c d : Data)
  | decs (p : Data)
  | decv (p : Data)
  | readq
  | adv
  deriving DecidableEq, Repr

/-- `wr REG, n` as a host action (R76). -/
def asmWrite (reg : Reg) (n : Data) : Action := .regWrite (regOffset reg) n

/-- `rd REG` as a host action (R76). -/
def asmRead (reg : Reg) : Action := .regRead (regOffset reg)

/-- A command mnemonic as the CMD write of its word (R76). -/
def asmCommand (w : Nat) : Action := asmWrite .cmd (BitVec.ofNat 64 w)

/-- The host actions of a line; `none` where the assembler rejects it (`gvtbrd s` with s outside 0..255, R76). `l` and `p`
are the values the host's own reads of LEN and IN_PTR return, which only `adv` uses: the addition is the host's
(R77). DESIGN CHOICE (log 17): a sum p + l at or above 2^64, of which R77 says nothing, wraps modulo 2^64. -/
def assemble (l p : Data) : AsmLine → Option (List Action)
  | .wr reg n => some [asmWrite reg n]
  | .rd reg => some [asmRead reg]
  | .gvenc => some [asmCommand 0x00000001]
  | .gvdecs => some [asmCommand 0x00000002]
  | .gvtbl => some [asmCommand 0x00000003]
  | .gvtbrd s => if s ≤ 255 then some [asmCommand (0x00000004 + s * 0x100)] else none
  | .gvdecv => some [asmCommand 0x00000005]
  | .encq a b c d =>
    some [asmWrite (.v 0) a, asmWrite (.v 1) b, asmWrite (.v 2) c, asmWrite (.v 3) d, asmCommand 0x00000001]
  | .decs q => some [asmWrite .inPtr q, asmCommand 0x00000002]
  | .decv q => some [asmWrite .inPtr q, asmCommand 0x00000005]
  | .readq => some [asmRead (.r 0), asmRead (.r 1), asmRead (.r 2), asmRead (.r 3), asmRead .len]
  | .adv => some [asmRead .len, asmRead .inPtr, asmWrite .inPtr (p + l)]

/-! ## The text of a line -/

/-- A blank inside a line. -/
def isBlank (c : Char) : Bool := c == ' ' || c == '\t' || c == '\r'

/-- A line without its comment, which `;` begins (R76). -/
def stripComment (cs : List Char) : List Char := cs.takeWhile (· != ';')

/-- A list of characters without the blanks at its two ends. -/
def trimBlanks (cs : List Char) : List Char := ((cs.dropWhile isBlank).reverse.dropWhile isBlank).reverse

/-- The pieces between the separators, in order. -/
def splitAt (sep : Char) : List Char → List (List Char)
  | [] => [[]]
  | c :: cs =>
    match splitAt sep cs with
    | [] => [[c]]
    | piece :: rest => if c == sep then [] :: piece :: rest else (c :: piece) :: rest

/-- A digit's value in the given base, 10 or 16. -/
def digitValue (base : Nat) (c : Char) : Option Nat :=
  let n := c.toNat
  let d := if 48 ≤ n && n ≤ 57 then n - 48
    else if 97 ≤ n && n ≤ 102 then n - 87
    else if 65 ≤ n && n ≤ 70 then n - 55
    else base
  if d < base then some d else none

/-- Digits after those already read, most significant first. -/
def digitsValue (base acc : Nat) : List Char → Option Nat
  | [] => some acc
  | c :: cs =>
    match digitValue base c with
    | none => none
    | some d => digitsValue base (acc * base + d) cs

/-- A number: decimal, or hexadecimal after `0x` (R76). -/
def parseNumber : List Char → Option Nat
  | [] => none
  | '0' :: 'x' :: c :: cs => digitsValue 16 0 (c :: cs)
  | c :: cs => digitsValue 10 0 (c :: cs)

/-- A number that is a 64-bit data value (R40). -/
def parseData (cs : List Char) : Option Data :=
  match parseNumber cs with
  | none => none
  | some n => if n < 2 ^ 64 then some (BitVec.ofNat 64 n) else none

/-- The names of the register map (R39). -/
def regNames : List (List Char × Reg) :=
  [(['C', 'M', 'D'], .cmd), (['S', 'T', 'A', 'T', 'U', 'S'], .status), (['C', 'A', 'P', 'S'], .caps),
    (['F', 'A', 'D', 'D', 'R'], .faddr), (['F', 'C', 'M', 'D'], .fcmd),
    (['V', '0'], .v 0), (['V', '1'], .v 1), (['V', '2'], .v 2), (['V', '3'], .v 3),
    (['R', '0'], .r 0), (['R', '1'], .r 1), (['R', '2'], .r 2), (['R', '3'], .r 3),
    (['L', 'E', 'N'], .len), (['I', 'N', '_', 'P', 'T', 'R'], .inPtr),
    (['O', 'U', 'T', '_', 'P', 'T', 'R'], .outPtr)]

/-- A register's name (R39). -/
def parseReg (cs : List Char) : Option Reg := (regNames.find? (fun e => e.1 == cs)).map Prod.snd

/-- The mnemonics of R76 and R77 with the operands each takes. -/
inductive Mnemonic where
  | wr | rd | gvenc | gvdecs | gvtbl | gvtbrd | gvdecv | encq | decs | decv | readq | adv
  deriving DecidableEq, Repr

/-- The mnemonics in lower case (R76: they are case-insensitive). -/
def mnemonicNames : List (List Char × Mnemonic) :=
  [(['w', 'r'], .wr), (['r', 'd'], .rd), (['g', 'v', 'e', 'n', 'c'], .gvenc),
    (['g', 'v', 'd', 'e', 'c', 's'], .gvdecs), (['g', 'v', 't', 'b', 'l'], .gvtbl),
    (['g', 'v', 't', 'b', 'r', 'd'], .gvtbrd), (['g', 'v', 'd', 'e', 'c', 'v'], .gvdecv),
    (['e', 'n', 'c', 'q'], .encq), (['d', 'e', 'c', 's'], .decs), (['d', 'e', 'c', 'v'], .decv),
    (['r', 'e', 'a', 'd', 'q'], .readq), (['a', 'd', 'v'], .adv)]

/-- The line of a mnemonic with its operands; `none` where their number or form is wrong (R76, R77). -/
def parseOperands : Mnemonic → List (List Char) → Option AsmLine
  | .wr, [reg, n] => do return .wr (← parseReg reg) (← parseData n)
  | .rd, [reg] => do return .rd (← parseReg reg)
  | .gvenc, [] => some .gvenc
  | .gvdecs, [] => some .gvdecs
  | .gvtbl, [] => some .gvtbl
  | .gvtbrd, [s] => do return .gvtbrd (← parseNumber s)
  | .gvdecv, [] => some .gvdecv
  | .encq, [a, b, c, d] => do return .encq (← parseData a) (← parseData b) (← parseData c) (← parseData d)
  | .decs, [p] => do return .decs (← parseData p)
  | .decv, [p] => do return .decv (← parseData p)
  | .readq, [] => some .readq
  | .adv, [] => some .adv
  | _, _ => none

/-- The operands after a mnemonic: separated by commas, blanks around them dropped. -/
def operandTexts (cs : List Char) : List (List Char) :=
  let t := trimBlanks cs
  if t.isEmpty then [] else (splitAt ',' t).map trimBlanks

/-- One line of text (R76): `some none` for a line with nothing but blanks and a comment, `none` where it is rejected. -/
def parseLine (cs : List Char) : Option (Option AsmLine) :=
  let t := trimBlanks (stripComment cs)
  if t.isEmpty then some none
  else
    let word := (t.takeWhile (fun c => !isBlank c)).map Char.toLower
    match mnemonicNames.find? (fun e => e.1 == word) with
    | none => none
    | some e => (parseOperands e.2 (operandTexts (t.dropWhile (fun c => !isBlank c)))).map some

end Sys2Proof.Machine
end

