-- ==== Sys2Proof/Safety.lean ====
section
/-! DEFINITION. What counts as a failed run (70_reset_and_hazards.md R180), and the invariants that every step keeps. -/

namespace Sys2Proof.Machine

/-- A state in which the run has failed: STATUS.FAULT = 1 (R180). -/
abbrev State.failed (s : State) : Prop := s.fault = true

/-- All n bytes from address a are readable (R52). -/
abbrev allReadable (s : State) (a n : Nat) : Prop := ∀ j, j < n → readableAt s (a + j) = true

/-- All n bytes from address a are writable (R53). -/
abbrev allWritable (s : State) (a n : Nat) : Prop := ∀ j, j < n → writableAt s (a + j) = true

/-- x is the lowest address in [a, a+n) that `ok` denies (R153). -/
abbrev lowestDenied (ok : Nat → Bool) (a n x : Nat) : Prop :=
  a ≤ x ∧ x < a + n ∧ ok x = false ∧ ∀ y, a ≤ y → y < x → ok y = true

/-- The two memories agree at every address outside [a, a+n). -/
def sameOutside (m m' : Memory) (a n : Nat) : Prop :=
  ∀ x, x < a ∨ a + n ≤ x → Memory.read m' x = Memory.read m x

/-- The two memories agree at every address in [a, a+n). -/
abbrev sameInside (m m' : Memory) (a n : Nat) : Prop := ∀ j, j < n → Memory.read m' (a + j) = Memory.read m (a + j)

/-- The host's next action is the platform's reset. -/
def resetNext (s : State) : Prop := ∃ rest, s.script = .reset :: rest

/-- The host's next action is a write of d to the register slot at `off`, by its offset or by its bus address (R39,
R40). -/
def registerWriteNext (s : State) (off : Nat) (d : Data) : Prop :=
  ∃ act rest, s.script = act :: rest ∧ registerWrite s.params act = some (off, d)

/-- The memory is canonical and lists only addresses that exist, below 2^AW (R50). -/
abbrev MemoryOk (s : State) : Prop := Memory.wf s.mem ∧ ∀ c ∈ s.mem, c.1 < 2 ^ s.params.aw

/-- FADDR, IN_PTR and OUT_PTR are AW bits wide (R26, R31, R32). -/
abbrev PointersFit (s : State) : Prop :=
  s.faddr.toNat < 2 ^ s.params.aw ∧ s.inPtr.toNat < 2 ^ s.params.aw ∧ s.outPtr.toNat < 2 ^ s.params.aw

/-- Once TV = 1, TBL holds Entry(s) for every s (R36, R125). -/
abbrev TableOk (s : State) : Prop := s.tableValid = true → s.tbl = shuffleTable s.params.zeroFill

/-- LEN is as reset left it (the model's value, log 1) or in 5..17 (R30). -/
abbrev LenOk (s : State) : Prop := s.len = Config.resetWord ∨ (5 ≤ s.len.toNat ∧ s.len.toNat ≤ 17)

/-- Which command word FCMD can hold for each fault cause (R150, R151). -/
def recordMatches (s : State) : FaultCode → Prop
  | .noFault => s.faddr = 0 ∧ s.fcmd = 0
  | .illegalCmd => s.faddr = 0 ∧ ∀ i, decode s.params.hasSimd s.fcmd ≠ .ok i
  | .tableNotBuilt => s.faddr = 0 ∧ (s.fcmd = encode .gvdecv ∨ ∃ sel, s.fcmd = encode (.gvtbrd sel))
  | .readFault => s.fcmd = encode .gvdecs ∨ s.fcmd = encode .gvdecv
  | .writeFault => s.fcmd = encode .gvenc

/-- STATUS.FAULT is set exactly when a cause is recorded, and the record is one a command can leave (R24, R150,
R151). -/
def FaultRecordOk (s : State) : Prop := (s.fault = true ↔ s.fcode ≠ .noFault) ∧ recordMatches s s.fcode

/-- The invariant of the machine. -/
structure GvcInvariant (s : State) : Prop where
  memory : MemoryOk s
  pointers : PointersFit s
  table : TableOk s
  len : LenOk s
  faultRecord : FaultRecordOk s

end Sys2Proof.Machine
end

