-- ==== Sys2Proof/Certificates/Slice0/Obligations.lean ====
section
/-! DEFINITION. The statements for the provers, each made from numbered rules of spec/. -/

open Sys2Proof Sys2Proof.Machine

/-! ## The command word (30_encoding.md) -/

/-- R70-R72: the word of a command the GVC has decodes to that command, for every operand. -/
def Obligations.DecodeEncodeRoundTrip : Prop :=
  ∀ (hasSimd : Bool) (i : Instr), i.wellFormed hasSimd = true → decode hasSimd (encode i) = .ok i

/-- R72, R74: a word that decodes is the one word of its command, and the GVC has that command. -/
def Obligations.DecodedWordIsItsEncoding : Prop :=
  ∀ (hasSimd : Bool) (w : Word) (i : Instr), decode hasSimd w = .ok i → encode i = w ∧ i.wellFormed hasSimd = true

/-- R73: the words that do not decode are exactly those of its four cases, and executing one raises
Fault(ILLEGAL_CMD, 0). -/
def Obligations.IllegalWordsRaiseIllegalCmd : Prop :=
  (∀ (hasSimd : Bool) (w : Word), (∀ i, decode hasSimd w ≠ .ok i) ↔
    (w.extractLsb 3 0 = 0#4 ∨ 6#4 ≤ w.extractLsb 3 0) ∨ (w.extractLsb 7 4 ≠ 0#4 ∨ w.extractLsb 31 16 ≠ 0#16) ∨
      (w.extractLsb 15 8 ≠ 0#8 ∧ w.extractLsb 3 0 ≠ 4#4) ∨ (w.extractLsb 3 0 = 5#4 ∧ hasSimd = false)) ∧
  ∀ (s : State) (d : Data), s.fault = false → (∀ i, decode s.params.hasSimd (d.setWidth 32) ≠ .ok i) →
    hostWrite 0x00 d s =
      .next { s with fault := true, fcode := .illegalCmd, faddr := 0, fcmd := d.setWidth 32 }

/-- R71, spec/opcode_table.json: one word of each row, written out bit by bit. -/
def Obligations.SampleCommandWordsDecode : Prop :=
  ∀ hasSimd : Bool,
    decode hasSimd 0b0000000000000000000000000000_0001#32 = .ok .gvenc ∧
    decode hasSimd 0b0000000000000000000000000000_0010#32 = .ok .gvdecs ∧
    decode hasSimd 0b0000000000000000000000000000_0011#32 = .ok .gvtbl ∧
    decode hasSimd 0b0000000000000000_11111111_0000_0100#32 = .ok (.gvtbrd 0xFF) ∧
    (decode hasSimd 0b0000000000000000000000000000_0101#32 = .ok .gvdecv ↔ hasSimd = true)

/-! ## Steps and dispatch (60_exceptions.md) -/

/-- R23, R40, R154: a step whose action is a CMD write runs the command the word decodes to, the rest of the script
waiting. The second clause says it of a word placed by `withFetchWord`. -/
def Obligations.StepRunsTheDecodedCommand : Prop :=
  (∀ (s : State) (d : Data) (rest : List Action) (i : Instr), s.script = .regWrite 0x00 d :: rest →
    decode s.params.hasSimd (d.setWidth 32) = .ok i → step s = exec i { s with script := rest }) ∧
  ∀ (s : State) (w : Nat) (i : Instr), w < 2 ^ 32 → decode s.params.hasSimd (BitVec.ofNat 32 w) = .ok i →
    step (s.withFetchWord 32 w) = exec i s

/-- R154: Execute. -/
def Obligations.ExecuteChecksFaultThenDecodes : Prop :=
  ∀ (s : State) (w : Word),
    (s.fault = true → execute w s = .next s) ∧
    (s.fault = false → (∀ i, decode s.params.hasSimd w ≠ .ok i) → execute w s = .next (raiseFault .illegalCmd 0 w s)) ∧
    (s.fault = false → ∀ i, decode s.params.hasSimd w = .ok i → execute w s = exec i s)

/-- R156: while FAULT = 1 no step but a reset changes the record, every CMD write is ignored, and a reset clears it. -/
def Obligations.OnlyResetClearsTheFaultRecord : Prop :=
  ∀ s : State, s.fault = true →
    (∀ d, hostWrite 0x00 d s = .next s) ∧
    ∀ t, step s = .next t →
      (¬ resetNext s → t.fault = true ∧ t.fcode = s.fcode ∧ t.faddr = s.faddr ∧ t.fcmd = s.fcmd) ∧
      (resetNext s → t.fault = false ∧ t.fcode = .noFault ∧ t.faddr = 0 ∧ t.fcmd = 0)

/-- R150, R152: a command that faults changes the four fault fields and nothing else, and its code and address are
those of the cause. -/
def Obligations.EachFaultHasItsCause : Prop :=
  ∀ (s t : State) (w : Word), s.fault = false → execute w s = .next t → t.fault = true →
    ∃ (code : FaultCode) (x : Nat),
      t = { s with fault := true, fcode := code, faddr := truncAW s.params x, fcmd := w } ∧
      ((code = .illegalCmd ∧ x = 0 ∧ ∀ i, decode s.params.hasSimd w ≠ .ok i) ∨
       (code = .tableNotBuilt ∧ x = 0 ∧ s.tableValid = false ∧
         (decode s.params.hasSimd w = .ok .gvdecv ∨ ∃ sel, decode s.params.hasSimd w = .ok (.gvtbrd sel))) ∨
       (code = .readFault ∧
         ((decode s.params.hasSimd w = .ok .gvdecs ∧
            lowestDenied (readableAt s) s.inPtr.toNat (blockLength (Memory.read s.mem s.inPtr.toNat)) x) ∨
          (decode s.params.hasSimd w = .ok .gvdecv ∧ s.tableValid = true ∧
            lowestDenied (readableAt s) s.inPtr.toNat 17 x))) ∨
       (code = .writeFault ∧ decode s.params.hasSimd w = .ok .gvenc ∧
         lowestDenied (writableAt s) s.outPtr.toNat (quadBlockLength s.v) x))

/-! ## GVENC (40_encode.md) -/

/-- R101: with a target byte not writable GVENC raises WRITE_FAULT at the lowest one and changes nothing else; with all
writable it completes, stores exactly the BL block bytes from OUT_PTR on, advances OUT_PTR modulo 2^AW and sets
LEN. The memory is canonical and OUT_PTR is AW bits wide (both kept by StepKeepsTheInvariant). -/
def Obligations.GvencAppendsTheBlockOrFaults : Prop :=
  ∀ s : State, s.fault = false → Memory.wf s.mem → s.outPtr.toNat < 2 ^ s.params.aw →
    (∀ x, lowestDenied (writableAt s) s.outPtr.toNat (quadBlockLength s.v) x →
      exec .gvenc s =
        .next { s with fault := true, fcode := .writeFault, faddr := truncAW s.params x, fcmd := 0x00000001 }) ∧
    (allWritable s s.outPtr.toNat (quadBlockLength s.v) →
      ∃ t, exec .gvenc s = .next t ∧ t = { s with mem := t.mem, outPtr := t.outPtr, len := t.len } ∧
        t.outPtr.toNat = (s.outPtr.toNat + quadBlockLength s.v) % 2 ^ s.params.aw ∧
        (t.outPtr = 0 ↔ s.outPtr.toNat + quadBlockLength s.v = 2 ^ s.params.aw) ∧
        t.len.toNat = quadBlockLength s.v ∧ (blockOf s.v).length = quadBlockLength s.v ∧
        (∀ j : Fin (blockOf s.v).length, Memory.read t.mem (s.outPtr.toNat + j.val) = (blockOf s.v).get j) ∧
        sameOutside s.mem t.mem s.outPtr.toNat (quadBlockLength s.v))

/-- R55, R79, R80, R100: in memory after GVENC, the selector's field k is byte_length(V[k]) - 1, and byte i of V[k]
stands after the selector and the bytes of the values before it, low byte first. -/
def Obligations.GvencBlockLayoutInMemory : Prop :=
  ∀ s : State, s.fault = false → Memory.wf s.mem → allWritable s s.outPtr.toNat (quadBlockLength s.v) →
    ∃ t, exec .gvenc s = .next t ∧
      ∀ k : Fin 4,
        valueLength (Memory.read t.mem s.outPtr.toNat) k.val = byteLength (s.v.get k) ∧
        ∀ i, i < byteLength (s.v.get k) →
          Memory.read t.mem
              (s.outPtr.toNat + 1 + payloadOffset (Memory.read t.mem s.outPtr.toNat) k.val + i) =
            (s.v.get k).extractLsb' (8 * i) 8

/-- R102: the selector GVENC writes at OUT_PTR is { L0-1, L1-1, L2-1, L3-1 }. -/
def Obligations.GvencSelectorByte : Prop :=
  ∀ s t : State, s.fault = false → Memory.wf s.mem → exec .gvenc s = .next t → t.fault = false →
    Memory.read t.mem s.outPtr.toNat =
      BitVec.ofNat 2 (byteLength (s.v.get 0) - 1) ++ BitVec.ofNat 2 (byteLength (s.v.get 1) - 1) ++
        BitVec.ofNat 2 (byteLength (s.v.get 2) - 1) ++ BitVec.ofNat 2 (byteLength (s.v.get 3) - 1)

/-- R103 (and R82): each field GVENC writes is the smallest length of its value minus one, so a longer value's top
payload byte is not zero, and the value 0 is the one byte 0x00. -/
def Obligations.GvencBlocksAreMinimal : Prop :=
  ∀ s t : State, s.fault = false → Memory.wf s.mem → exec .gvenc s = .next t → t.fault = false →
    ∀ k : Fin 4,
      (s.v.get k).toNat < 2 ^ (8 * valueLength (Memory.read t.mem s.outPtr.toNat) k.val) ∧
      (∀ L, 1 ≤ L → (s.v.get k).toNat < 2 ^ (8 * L) → valueLength (Memory.read t.mem s.outPtr.toNat) k.val ≤ L) ∧
      (1 < valueLength (Memory.read t.mem s.outPtr.toNat) k.val →
        Memory.read t.mem
            (s.outPtr.toNat + payloadOffset (Memory.read t.mem s.outPtr.toNat) k.val
              + valueLength (Memory.read t.mem s.outPtr.toNat) k.val) ≠ 0) ∧
      (s.v.get k = 0 →
        selectorField (Memory.read t.mem s.outPtr.toNat) k.val = 0 ∧
        Memory.read t.mem
            (s.outPtr.toNat + 1 + payloadOffset (Memory.read t.mem s.outPtr.toNat) k.val) = 0)

/-- R54, R105: a block that would pass the top of the address space is not wrapped: with every byte below 2^AW writable
GVENC raises WRITE_FAULT with FADDR = 0. -/
def Obligations.GvencPastTheTopFaultsAtZero : Prop :=
  ∀ s : State, s.fault = false → s.outPtr.toNat < 2 ^ s.params.aw →
    2 ^ s.params.aw < s.outPtr.toNat + quadBlockLength s.v →
    (∀ a, s.outPtr.toNat ≤ a → a < 2 ^ s.params.aw → writableAt s a = true) →
    exec .gvenc s = .next { s with fault := true, fcode := .writeFault, faddr := 0, fcmd := 0x00000001 }

/-- R175: two GVENC commands with no host write to OUT_PTR between them append their blocks back to back. Between the two,
in t', anything else may have changed but the first block's bytes: a new quad in V above all. -/
def Obligations.ConsecutiveGvencBlocksAreBackToBack : Prop :=
  ∀ s t t' u : State, s.fault = false → exec .gvenc s = .next t → t.fault = false →
    s.outPtr.toNat + quadBlockLength s.v < 2 ^ s.params.aw →
    t'.outPtr = t.outPtr → sameInside t.mem t'.mem s.outPtr.toNat (quadBlockLength s.v) →
    exec .gvenc t' = .next u → u.fault = false →
    (∀ j : Fin (blockOf s.v).length, Memory.read u.mem (s.outPtr.toNat + j.val) = (blockOf s.v).get j) ∧
    ∀ j : Fin (blockOf t'.v).length,
      Memory.read u.mem (s.outPtr.toNat + quadBlockLength s.v + j.val) = (blockOf t'.v).get j

/-! ## GVDECS (41_decode_scalar.md) -/

/-- R110: with a byte of the block unreadable GVDECS raises READ_FAULT at the lowest one and R0..R3 and LEN keep their
values; with the block readable it completes with the four little-endian values and the block length. -/
def Obligations.GvdecsDecodesTheBlockOrFaults : Prop :=
  ∀ s : State, s.fault = false →
    (∀ x, lowestDenied (readableAt s) s.inPtr.toNat (blockLength (Memory.read s.mem s.inPtr.toNat)) x →
      exec .gvdecs s =
        .next { s with fault := true, fcode := .readFault, faddr := truncAW s.params x, fcmd := 0x00000002 }) ∧
    (allReadable s s.inPtr.toNat (blockLength (Memory.read s.mem s.inPtr.toNat)) →
      ∃ t, exec .gvdecs s = .next t ∧ t = { s with r := t.r, len := t.len } ∧
        t.len.toNat = blockLength (Memory.read s.mem s.inPtr.toNat) ∧
        ∀ k : Fin 4, (t.r.get k).toNat =
          ∑ i ∈ Finset.range (valueLength (Memory.read s.mem s.inPtr.toNat) k.val),
            (Memory.read s.mem
              (s.inPtr.toNat + 1 + payloadOffset (Memory.read s.mem s.inPtr.toNat) k.val + i)).toNat * 2 ^ (8 * i))

/-- R111, R112: the outcome of GVDECS depends on no byte of memory outside the block. -/
def Obligations.GvdecsDependsOnTheBlockAlone : Prop :=
  ∀ (s t : State) (m : Memory),
    sameInside s.mem m s.inPtr.toNat (blockLength (Memory.read s.mem s.inPtr.toNat)) →
    exec .gvdecs s = .next t → exec .gvdecs { s with mem := m } = .next { t with mem := m }

/-- R52, R54, R114: a read past the top of the address space is not wrapped. With every byte below 2^AW readable, GVDECS
raises READ_FAULT with FADDR = 0 where its block passes 2^AW, and GVDECV where its seventeen bytes do. -/
def Obligations.DecodersPastTheTopFaultAtZero : Prop :=
  ∀ s : State, s.fault = false → s.inPtr.toNat < 2 ^ s.params.aw →
    (∀ a, s.inPtr.toNat ≤ a → a < 2 ^ s.params.aw → readableAt s a = true) →
    (2 ^ s.params.aw < s.inPtr.toNat + blockLength (Memory.read s.mem s.inPtr.toNat) →
      exec .gvdecs s = .next { s with fault := true, fcode := .readFault, faddr := 0, fcmd := 0x00000002 }) ∧
    (s.params.hasSimd = true → s.tableValid = true → 2 ^ s.params.aw < s.inPtr.toNat + 17 →
      exec .gvdecv s = .next { s with fault := true, fcode := .readFault, faddr := 0, fcmd := 0x00000005 })

/-- R52, R53: no address at or above 2^AW is accessible, whatever the platform's predicates say of it; below 2^AW they
decide. -/
def Obligations.AddressesPastTheTopAreDenied : Prop :=
  ∀ (s : State) (a : Nat),
    (2 ^ s.params.aw ≤ a → readableAt s a = false ∧ writableAt s a = false) ∧
    (a < 2 ^ s.params.aw →
      (readableAt s a = true ↔ ∃ g ∈ s.regions, g.readable = true ∧ g.base ≤ a ∧ a < g.base + g.size) ∧
      (writableAt s a = true ↔ ∃ g ∈ s.regions, g.writable = true ∧ g.base ≤ a ∧ a < g.base + g.size))

/-! ## GVTBL and GVTBRD (42_shuffle_table.md) -/

/-- R120, R124: GVTBL completes, writes Entry(x) into every entry x and sets TV, and writes nothing else. Byte j of an
entry is byte j % 4 of lane j / 4. -/
def Obligations.GvtblWritesEveryEntry : Prop :=
  ∀ s : State, s.fault = false →
    ∃ t, exec .gvtbl s = .next t ∧ t = { s with tbl := t.tbl, tableValid := true } ∧
      ∀ (x : Byte) (j : Fin 16), (t.tbl.get x.toFin).get j =
        if j.val % 4 < valueLength x (j.val / 4) then BitVec.ofNat 8 (payloadOffset x (j.val / 4) + j.val % 4)
        else s.params.zeroFill

/-- R122: the properties (a) to (d) of every entry, for every legal ZERO_FILL. -/
def Obligations.TableEntryProperties : Prop :=
  ∀ z x : Byte, z[7] = true →
    (((tableEntry z x).toList.filter fun e => !e[7]).map BitVec.toNat = List.range (payloadLength x)) ∧
    (∀ e ∈ (tableEntry z x).toList, e[7] = false → e.toNat ≤ payloadLength x - 1 ∧ payloadLength x - 1 ≤ 15) ∧
    (∀ j : Fin 16, (j.val % 4 < valueLength x (j.val / 4) → ((tableEntry z x).get j)[7] = false) ∧
      (valueLength x (j.val / 4) ≤ j.val % 4 → (tableEntry z x).get j = z)) ∧
    ((tableEntry z x).toList.filter fun e => !e[7]).length = payloadLength x ∧
    ((tableEntry z x).toList.filter fun e => e == z).length = 16 - payloadLength x

/-- R125: GVTBL issued when the table is built leaves the whole state as it was. That a built table holds the entries is
part of the invariant (StepKeepsTheInvariant). -/
def Obligations.GvtblIsIdempotent : Prop :=
  (∀ s : State, s.fault = false → TableOk s → s.tableValid = true → exec .gvtbl s = .next s) ∧
  ∀ s t : State, exec .gvtbl s = .next t → exec .gvtbl t = .next t

/-- R126: GVTBRD sel completes with entry sel in R0..R3, byte j in lane j / 4 at byte j % 4, and writes nothing else;
while TV = 0 it raises TABLE_NOT_BUILT. -/
def Obligations.GvtbrdCopiesTheEntryOrFaults : Prop :=
  ∀ (s : State) (sel : Byte), s.fault = false →
    (s.tableValid = true → ∃ t, exec (.gvtbrd sel) s = .next t ∧ t = { s with r := t.r } ∧
      ∀ (j : Fin 16) (k : Fin 4), j.val / 4 = k.val →
        (t.r.get k).extractLsb' (8 * (j.val % 4)) 8 = (s.tbl.get sel.toFin).get j) ∧
    (s.tableValid = false → exec (.gvtbrd sel) s =
      .next { s with
        fault := true, fcode := .tableNotBuilt, faddr := 0, fcmd := BitVec.ofNat 32 (4 + sel.toNat * 256) })

/-! ## GVDECV (43_decode_simd.md) -/

/-- R141: GVDECV's checks in their order, and with none of them in the way its completion: LEN from the selector, and each
result byte the shuffle of the window by the selector's table entry. The last clause holds of every table: that the
shuffle has a meaning on a control byte 0x10..0x7F, which no built table holds and of which R123 says the spec gives no
meaning, is the model's own (log entry 14, PRESUMED). -/
def Obligations.GvdecvShufflesTheWindowOrFaults : Prop :=
  ∀ s : State, s.fault = false →
    (s.params.hasSimd = false → exec .gvdecv s =
      .next { s with fault := true, fcode := .illegalCmd, faddr := 0, fcmd := 0x00000005 }) ∧
    (s.params.hasSimd = true → s.tableValid = false → exec .gvdecv s =
      .next { s with fault := true, fcode := .tableNotBuilt, faddr := 0, fcmd := 0x00000005 }) ∧
    (s.params.hasSimd = true → s.tableValid = true → ∀ x, lowestDenied (readableAt s) s.inPtr.toNat 17 x →
      exec .gvdecv s =
        .next { s with fault := true, fcode := .readFault, faddr := truncAW s.params x, fcmd := 0x00000005 }) ∧
    (s.params.hasSimd = true → s.tableValid = true → allReadable s s.inPtr.toNat 17 →
      ∃ t, exec .gvdecv s = .next t ∧ t = { s with r := t.r, len := t.len } ∧
        t.len.toNat = blockLength (Memory.read s.mem s.inPtr.toNat) ∧
        ∀ (j : Fin 16) (k : Fin 4) (ctl : Byte), j.val / 4 = k.val →
          ctl = (s.tbl.get (Memory.read s.mem s.inPtr.toNat).toFin).get j →
          (t.r.get k).extractLsb' (8 * (j.val % 4)) 8 =
            if ctl[7] then 0 else Memory.read s.mem (s.inPtr.toNat + 1 + ctl.toNat % 16))

/-- R145: with the table built, the outcome of GVDECV depends on no byte of memory past the block, though all seventeen
bytes must be readable for it to complete. -/
def Obligations.PadBytesDoNotMatter : Prop :=
  ∀ (s t : State) (m : Memory), TableOk s →
    sameInside s.mem m s.inPtr.toNat (blockLength (Memory.read s.mem s.inPtr.toNat)) →
    exec .gvdecv s = .next t →
    exec .gvdecv { s with mem := m } = .next { t with mem := m } ∧
      (s.fault = false → t.fault = false → allReadable s s.inPtr.toNat 17)

/-- R146: run from one state with the SIMD path present and the table built, the two decoders leave the same state if
both complete; where GVDECS faults GVDECV faults with the same code and address; GVDECV faults at the lowest unreadable
address of its window; and where only GVDECV faults, that address lies past the block. -/
def Obligations.DecodersAgree : Prop :=
  ∀ s t u : State, s.fault = false → s.params.hasSimd = true → s.tableValid = true → TableOk s →
    exec .gvdecs s = .next t → exec .gvdecv s = .next u →
    (t.fault = false → u.fault = false → u = t) ∧
    (t.fault = true → u.fault = true ∧ u.fcode = .readFault ∧ t.fcode = .readFault ∧ u.faddr = t.faddr) ∧
    (∀ x, lowestDenied (readableAt s) s.inPtr.toNat 17 x → u.fault = true ∧ u.faddr = truncAW s.params x) ∧
    (t.fault = false → u.fault = true →
      ∃ x, lowestDenied (readableAt s) s.inPtr.toNat 17 x ∧ u.faddr = truncAW s.params x ∧
        s.inPtr.toNat + blockLength (Memory.read s.mem s.inPtr.toNat) ≤ x)

/-! ## Round trips -/

/-- R113: GVENC, then, in any state u whose memory still holds the block's bytes and whose IN_PTR is where the block was
put, GVDECS with the block readable: R is the quad and LEN is the LEN that GVENC wrote. -/
def Obligations.ScalarRoundTrip : Prop :=
  ∀ s t u : State, s.fault = false → Memory.wf s.mem → exec .gvenc s = .next t → t.fault = false →
    u.fault = false → u.inPtr = s.outPtr → sameInside t.mem u.mem s.outPtr.toNat t.len.toNat →
    allReadable u u.inPtr.toNat t.len.toNat →
    ∃ w, exec .gvdecs u = .next w ∧ w = { u with r := s.v, len := t.len }

/-- R113, R146: the same through GVDECV, with its table built and its seventeen bytes readable. -/
def Obligations.SimdRoundTrip : Prop :=
  ∀ s t u : State, s.fault = false → Memory.wf s.mem → exec .gvenc s = .next t → t.fault = false →
    u.fault = false → u.params.hasSimd = true → u.tableValid = true → TableOk u →
    u.inPtr = s.outPtr → sameInside t.mem u.mem s.outPtr.toNat t.len.toNat → allReadable u u.inPtr.toNat 17 →
    ∃ w, exec .gvdecv u = .next w ∧ w = { u with r := s.v, len := t.len }

/-! ## Frames and what commands read -/

/-- R30: what each completed command leaves in LEN, and that a host write to it is ignored. -/
def Obligations.LenAfterEachCommand : Prop :=
  (∀ (i : Instr) (s t : State), s.fault = false → exec i s = .next t → t.fault = false →
    match i with
    | .gvenc => t.len.toNat = quadBlockLength s.v ∧ 5 ≤ t.len.toNat ∧ t.len.toNat ≤ 17
    | .gvdecs => t.len.toNat = blockLength (Memory.read s.mem s.inPtr.toNat) ∧ 5 ≤ t.len.toNat ∧ t.len.toNat ≤ 17
    | .gvtbl => t.len = s.len
    | .gvtbrd _ => t.len = s.len
    | .gvdecv => t.len.toNat = blockLength (Memory.read s.mem s.inPtr.toNat) ∧ 5 ≤ t.len.toNat ∧ t.len.toNat ≤ 17) ∧
  ∀ (s : State) (d : Data), hostWrite 0x68 d s = .next s

/-- R37, the table's writes: what each command may write when it completes, that a fault writes the four fault fields
alone, that a stopped GVC writes nothing, and that only GVENC stores to memory, inside [OUT_PTR, OUT_PTR + BL). -/
def Obligations.CommandFrames : Prop :=
  ∀ (i : Instr) (s t : State), exec i s = .next t →
    (s.fault = true → t = s) ∧
    (s.fault = false → t.fault = true →
      t = { s with fault := true, fcode := t.fcode, faddr := t.faddr, fcmd := encode i } ∧
        ∀ a, Memory.read t.mem a = Memory.read s.mem a) ∧
    (s.fault = false → t.fault = false →
      match i with
      | .gvenc => t = { s with mem := t.mem, outPtr := t.outPtr, len := t.len } ∧
          ∀ a, a < s.outPtr.toNat ∨ s.outPtr.toNat + quadBlockLength s.v ≤ a →
            Memory.read t.mem a = Memory.read s.mem a
      | .gvdecs => t = { s with r := t.r, len := t.len } ∧ ∀ a, Memory.read t.mem a = Memory.read s.mem a
      | .gvtbl => t = { s with tbl := t.tbl, tableValid := t.tableValid } ∧
          ∀ a, Memory.read t.mem a = Memory.read s.mem a
      | .gvtbrd _ => t = { s with r := t.r } ∧ ∀ a, Memory.read t.mem a = Memory.read s.mem a
      | .gvdecv => t = { s with r := t.r, len := t.len } ∧ ∀ a, Memory.read t.mem a = Memory.read s.mem a)

/-- R37, the table's reads, and R160: replacing by any other values the registers a command does not list as read changes
nothing else in its outcome. A replaced register that the command does not write keeps the new value, and one that it
writes keeps it only where the command is ignored or faults (t.fault). The last clause says it of FCODE, FADDR and
FCMD, which no command lists as read. -/
def Obligations.UnlistedRegistersAreNotRead : Prop :=
  ∀ (s t : State) (v r : Quad) (len : Word) (inPtr outPtr : Data) (tbl : Table) (tv : Bool),
    (exec .gvenc s = .next t →
      exec .gvenc { s with r := r, len := len, inPtr := inPtr, tbl := tbl, tableValid := tv } =
        .next { t with
          r := r, len := if t.fault then len else t.len, inPtr := inPtr, tbl := tbl, tableValid := tv }) ∧
    (exec .gvdecs s = .next t →
      exec .gvdecs { s with v := v, r := r, len := len, outPtr := outPtr, tbl := tbl, tableValid := tv } =
        .next { t with
          v := v, r := if t.fault then r else t.r, len := if t.fault then len else t.len, outPtr := outPtr,
          tbl := tbl, tableValid := tv }) ∧
    (exec .gvtbl s = .next t →
      exec .gvtbl { s with v := v, r := r, len := len, inPtr := inPtr, outPtr := outPtr, tbl := tbl, tableValid := tv } =
        .next { t with
          v := v, r := r, len := len, inPtr := inPtr, outPtr := outPtr,
          tbl := if t.fault then tbl else t.tbl, tableValid := if t.fault then tv else t.tableValid }) ∧
    (∀ sel, exec (.gvtbrd sel) s = .next t →
      exec (.gvtbrd sel) { s with v := v, r := r, len := len, inPtr := inPtr, outPtr := outPtr } =
        .next { t with
          v := v, r := if t.fault then r else t.r, len := len, inPtr := inPtr, outPtr := outPtr }) ∧
    (exec .gvdecv s = .next t →
      exec .gvdecv { s with v := v, r := r, len := len, outPtr := outPtr } =
        .next { t with
          v := v, r := if t.fault then r else t.r, len := if t.fault then len else t.len, outPtr := outPtr }) ∧
    ∀ (i : Instr) (fcode : FaultCode) (faddr : Data) (fcmd : Word), s.fault = false → exec i s = .next t →
      exec i { s with fcode := fcode, faddr := faddr, fcmd := fcmd } =
        .next { t with
          fcode := if t.fault then t.fcode else fcode, faddr := if t.fault then t.faddr else faddr,
          fcmd := if t.fault then t.fcmd else fcmd }

/-- R12, R104: every command answers a next state in every state. That it does so in EVERY state is the model's choice: a
GVC fault is a next state (log entry 9, DEDUCED), and a register nothing has written holds a value, where R38 asks for a
model fault (log entry 1, DESIGN CHOICE). -/
def Obligations.EveryCommandAnswersANextState : Prop := ∀ (i : Instr) (s : State), ∃ t, exec i s = .next t

/-! ## The register window (10_state.md) -/

/-- R40: a host write to each slot, and to an offset that is no slot. -/
def Obligations.HostWriteToEachSlot : Prop :=
  ∀ (s : State) (d : Data),
    hostWrite 0x00 d s = execute (d.setWidth 32) s ∧
    (∀ k : Fin 4, hostWrite (0x28 + 8 * k.val) d s = .next { s with v := s.v.set k (d.setWidth 32) }) ∧
    hostWrite 0x70 d s = .next { s with inPtr := BitVec.ofNat 64 (d.toNat % 2 ^ s.params.aw) } ∧
    hostWrite 0x78 d s = .next { s with outPtr := BitVec.ofNat 64 (d.toNat % 2 ^ s.params.aw) } ∧
    ∀ off, off ≠ 0x00 → off ≠ 0x28 → off ≠ 0x30 → off ≠ 0x38 → off ≠ 0x40 → off ≠ 0x70 → off ≠ 0x78 →
      hostWrite off d s = .next s

/-- R41: the value a host read of each slot returns, 0 for CMD and for an offset that is no slot, and that a read changes
nothing but the host's own record. -/
def Obligations.HostReadOfEachSlot : Prop :=
  ∀ s : State,
    hostRead s 0x00 = 0 ∧ hostRead s 0x08 = (statusWord s).setWidth 64 ∧
    hostRead s 0x10 = (capsWord s.params).setWidth 64 ∧ hostRead s 0x18 = s.faddr ∧
    hostRead s 0x20 = s.fcmd.setWidth 64 ∧
    (∀ k : Fin 4, hostRead s (0x28 + 8 * k.val) = (s.v.get k).setWidth 64) ∧
    (∀ k : Fin 4, hostRead s (0x48 + 8 * k.val) = (s.r.get k).setWidth 64) ∧
    hostRead s 0x68 = s.len.setWidth 64 ∧ hostRead s 0x70 = s.inPtr ∧ hostRead s 0x78 = s.outPtr ∧
    (∀ off, off % 8 ≠ 0 ∨ 0x80 ≤ off → hostRead s off = 0) ∧
    ∀ off rest, s.script = .regRead off :: rest →
      step s = .next { s with script := rest, observed := s.observed ++ [hostRead s off] }

/-- R24, R150: the fields of STATUS as the host reads it, FCODE with the number of each fault cause. -/
def Obligations.StatusFields : Prop :=
  ∀ s : State,
    ((hostRead s 0x08)[0] = s.fault) ∧ ((hostRead s 0x08)[1] = s.tableValid) ∧
    (hostRead s 0x08).extractLsb' 2 2 = 0 ∧
    (hostRead s 0x08).extractLsb' 4 4 =
      (match s.fcode with
      | .noFault => 0#4
      | .illegalCmd => 1#4
      | .tableNotBuilt => 2#4
      | .readFault => 3#4
      | .writeFault => 4#4) ∧
    (hostRead s 0x08).extractLsb' 8 56 = 0

/-- R25: the fields of CAPS as the host reads it, and that a host write to it is ignored. -/
def Obligations.CapsFields : Prop :=
  ∀ s : State,
    ((hostRead s 0x10)[0] = s.params.hasSimd) ∧ (hostRead s 0x10).extractLsb' 1 7 = 0 ∧
    ((hostRead s 0x10).extractLsb' 8 8).toNat = s.params.aw ∧
    (hostRead s 0x10).extractLsb' 16 8 = s.params.zeroFill ∧ (hostRead s 0x10).extractLsb' 24 40 = 0 ∧
    ∀ d, hostWrite 0x10 d s = .next s

/-- R39: the register window on the host's bus. A host access at bus address REG_BASE + off is the access to offset off;
register k's slot is at REG_BASE + 8k. An access outside the 128 bytes does not reach the GVC (log entry 11). -/
def Obligations.BusAccessesReachTheWindow : Prop :=
  (∀ (s : State) (off : Nat) (d : Data) (rest : List Action), off < 128 →
    (s.script = .busWrite (s.params.regBase + off) d :: rest →
      step s = hostWrite off d { s with script := rest }) ∧
    (s.script = .busRead (s.params.regBase + off) :: rest →
      step s = .next { s with script := rest, observed := s.observed ++ [hostRead s off] })) ∧
  (∀ (s : State) (a : Nat) (rest : List Action), a < s.params.regBase ∨ s.params.regBase + 128 ≤ a →
    s.script = .busRead a :: rest ∨ (∃ d, s.script = .busWrite a d :: rest) →
    step s = .next { s with script := rest }) ∧
  ∀ p : Params,
    [.cmd, .status, .caps, .faddr, .fcmd, .v 0, .v 1, .v 2, .v 3, .r 0, .r 1, .r 2, .r 3, .len, .inPtr, .outPtr].map
      (busAddress p) = (List.range 16).map fun k => p.regBase + 8 * k

/-! ## Host memory, the assembler, the block format -/

/-- R42, R63: a byte the host stores is what its next read of that address records, and every other address reads as
before. That the host's own accesses succeed at every address below 2^AW, whatever Readable and Writable say, is the
model's choice (log entry 7, DESIGN CHOICE). -/
def Obligations.HostMemoryReadsWhatWasWritten : Prop :=
  ∀ (s : State) (a c : Nat) (b : Byte) (rest : List Action), Memory.wf s.mem →
    a < 2 ^ s.params.aw → c < 2 ^ s.params.aw → s.script = .memWrite a b :: .memRead c :: rest →
    ∃ t u, step s = .next t ∧ step t = .next u ∧ t = { s with mem := t.mem, script := t.script } ∧
      u = { t with
        script := rest
        observed := s.observed ++ [(if c = a then b else Memory.read s.mem c).setWidth 64] }

/-- The first two clauses are the model's choice (log entry 3, DESIGN CHOICE): the draw for an unwritten byte is a function
of its address alone, and the memory lists exactly the written bytes, so that unlisted means unwritten. Over that choice
the third says what R69 and R110 do: GVDECS on a memory in which nothing is written decodes the platform's bytes, whatever
they are. -/
def Obligations.UnwrittenBytesAreThePlatforms : Prop :=
  (∀ (m : Memory) (a : Nat), (∀ c ∈ m, c.1 ≠ a) → Memory.read m a = Config.unwrittenByte a) ∧
  (∀ (m : Memory) (a : Nat) (b : Byte), Memory.wf m → (a, b) ∈ m → Memory.read m a = b) ∧
  ∀ (s : State) (k : Fin 4), s.fault = false → s.mem = [] →
    allReadable s s.inPtr.toNat (blockLength (Config.unwrittenByte s.inPtr.toNat)) →
    ∃ t, exec .gvdecs s = .next t ∧
      (t.r.get k).toNat =
        ∑ i ∈ Finset.range (valueLength (Config.unwrittenByte s.inPtr.toNat) k.val),
          (Config.unwrittenByte
            (s.inPtr.toNat + 1 + payloadOffset (Config.unwrittenByte s.inPtr.toNat) k.val + i)).toNat * 2 ^ (8 * i)

/-- R50: the one stop of the model: a host memory access at an address that does not exist (log entry 7). -/
def Obligations.StepsStopOnlyAtAbsentHostAddresses : Prop :=
  ∀ s : State, (∀ q, step s ≠ .refused q) ∧
    ∀ f, step s = .fault f ↔
      ∃ a rest, 2 ^ s.params.aw ≤ a ∧ f = .noSuchHostAddress a ∧
        ((∃ b, s.script = .memWrite a b :: rest) ∨ s.script = .memRead a :: rest)

/-- R76: the line of each command is one CMD write of a word that decodes to the command, and `gvtbrd s` is rejected
exactly where s is outside 0..255. -/
def Obligations.AssembledCommandsDecode : Prop :=
  ∀ l p : Data,
    (∀ s, (255 < s → assemble l p (.gvtbrd s) = none) ∧
      (s ≤ 255 → ∃ d, assemble l p (.gvtbrd s) = some [.regWrite 0x00 d] ∧
        ∀ hasSimd, decode hasSimd (d.setWidth 32) = .ok (.gvtbrd (BitVec.ofNat 8 s)))) ∧
    (∃ d, assemble l p .gvenc = some [.regWrite 0x00 d] ∧ ∀ hasSimd, decode hasSimd (d.setWidth 32) = .ok .gvenc) ∧
    (∃ d, assemble l p .gvdecs = some [.regWrite 0x00 d] ∧ ∀ hasSimd, decode hasSimd (d.setWidth 32) = .ok .gvdecs) ∧
    (∃ d, assemble l p .gvtbl = some [.regWrite 0x00 d] ∧ ∀ hasSimd, decode hasSimd (d.setWidth 32) = .ok .gvtbl) ∧
    ∃ d, assemble l p .gvdecv = some [.regWrite 0x00 d] ∧ decode true (d.setWidth 32) = .ok .gvdecv

/-- R84: how many selectors have each payload length, and which one has the least and the greatest. -/
def Obligations.SelectorCensus : Prop :=
  (∀ x : Byte, blockLength x = payloadLength x + 1 ∧ (payloadLength x = 4 ↔ x = 0x00) ∧
    (payloadLength x = 16 ↔ x = 0xFF)) ∧
  ∀ n : Nat, ((List.range 256).filter fun x => payloadLength (BitVec.ofNat 8 x) == n).length =
    if n < 4 ∨ 16 < n then 0 else [1, 4, 10, 20, 31, 40, 44, 40, 31, 20, 10, 4, 1].getD (n - 4) 0

/-! ## The whole machine -/

/-- R26, R30-R32, R36, R50, R150: every step keeps the invariant of Safety.lean. Its clause on LEN names the model's own
reset value (log entry 1). -/
def Obligations.StepKeepsTheInvariant : Prop := ∀ s t : State, GvcInvariant s → step s = .next t → GvcInvariant t

/-- R170: the invariant holds after reset. Its clause on LEN rests on the model's own reset value (log entry 1). -/
def Obligations.ResetMeetsTheInvariant : Prop := GvcInvariant State.reset

/-- R170: what the platform's reset does in any state to what the spec gives a reset value, and what it does not touch.
The values it leaves in V, R, LEN, IN_PTR, OUT_PTR and TBL are the model's (log entries 1 and 2) and not stated. -/
def Obligations.PlatformResetState : Prop :=
  ∀ (s : State) (rest : List Action), s.script = .reset :: rest →
    ∃ t, step s = .next t ∧ hostRead t 0x08 = 0 ∧ hostRead t 0x18 = 0 ∧ hostRead t 0x20 = 0 ∧
      hostRead t 0x10 = hostRead s 0x10 ∧ t.mem = s.mem ∧ t.params = s.params ∧ t.regions = s.regions ∧
      t.script = rest ∧ t.observed = s.observed

/-- R36: once TV = 1 no step but a reset changes TBL or TV. -/
def Obligations.TableStaysUntilReset : Prop :=
  ∀ s t : State, TableOk s → s.tableValid = true → step s = .next t → ¬ resetNext s →
    t.tableValid = true ∧ t.tbl = s.tbl

/-- R24, R34: while TV = 0, only a step that runs GVTBL sets TV or changes TBL, but for a reset. -/
def Obligations.OnlyGvtblPublishesTheTable : Prop :=
  ∀ s t : State, s.tableValid = false → step s = .next t → ¬ resetNext s →
    (t.tableValid = true ∨ t.tbl ≠ s.tbl) →
    ∃ d : Data, registerWriteNext s 0x00 d ∧ s.fault = false ∧
      decode s.params.hasSimd (d.setWidth 32) = .ok .gvtbl

/-- R1-R3, R28, R31: no step changes the platform's parameters, and but for a reset, a step that changes V or IN_PTR is a
host write to their slots. That no step changes the predicates Readable and Writable of R52 and R53 is the model's choice
(log entry 5, DESIGN CHOICE). OUT_PTR, which GVENC changes too, is OutPtrChangesOnlyByGvencOrHostWrites's. -/
def Obligations.ParametersStayAndVAndInPtrChangeOnlyByHostWrites : Prop :=
  ∀ s t : State, step s = .next t → t.params = s.params ∧ t.regions = s.regions ∧
    (¬ resetNext s →
      (t.v ≠ s.v → ∃ (k : Fin 4) (d : Data), registerWriteNext s (0x28 + 8 * k.val) d) ∧
      (t.inPtr ≠ s.inPtr → ∃ d : Data, registerWriteNext s 0x70 d))

/-- R32: but for a reset, a step that changes OUT_PTR is a host write to its slot, or a CMD write that runs GVENC on a GVC
that is not stopped. -/
def Obligations.OutPtrChangesOnlyByGvencOrHostWrites : Prop :=
  ∀ s t : State, step s = .next t → ¬ resetNext s → t.outPtr ≠ s.outPtr →
    ∃ d : Data, registerWriteNext s 0x78 d ∨
      (registerWriteNext s 0x00 d ∧ s.fault = false ∧ decode s.params.hasSimd (d.setWidth 32) = .ok .gvenc)
end

