-- ==== Sys2Proof/Laws/Access.lean ====
section
/-! SUPPORT. What the ascending access check answers: nothing, when every byte is accessible, else the lowest address that
is not (R58, R101, R153). -/

namespace Sys2Proof.Machine

theorem firstInaccessible_eq_none {ok : Nat → Bool} {a n : Nat} :
    firstInaccessible ok a n = none ↔ ∀ j, j < n → ok (a + j) = true := by
  induction n generalizing a with
  | zero => simp [firstInaccessible]
  | succ n ih =>
    unfold firstInaccessible
    split
    · next h =>
      rw [ih]
      constructor
      · intro hj j hjn
        cases j with
        | zero => exact h
        | succ j => rw [show a + (j + 1) = a + 1 + j by omega]; exact hj j (by omega)
      · intro hj j hjn
        rw [show a + 1 + j = a + (j + 1) by omega]; exact hj (j + 1) (by omega)
    · next h =>
      refine ⟨fun hn => by simp at hn, fun hj => absurd (hj 0 (by omega)) (by simpa using h)⟩

theorem firstInaccessible_eq_some {ok : Nat → Bool} {a n x : Nat} :
    firstInaccessible ok a n = some x ↔
      a ≤ x ∧ x < a + n ∧ ok x = false ∧ ∀ y, a ≤ y → y < x → ok y = true := by
  induction n generalizing a with
  | zero => simp [firstInaccessible]; omega
  | succ n ih =>
    unfold firstInaccessible
    split
    · next h =>
      rw [ih]
      constructor
      · rintro ⟨h1, h2, h3, h4⟩
        refine ⟨by omega, by omega, h3, fun y hy hyx => ?_⟩
        rcases Nat.eq_or_lt_of_le hy with rfl | hlt
        · exact h
        · exact h4 y hlt hyx
      · rintro ⟨h1, h2, h3, h4⟩
        have hne : a ≠ x := by rintro rfl; simp_all
        exact ⟨by omega, by omega, h3, fun y hy hyx => h4 y (by omega) hyx⟩
    · next h =>
      have h' : ok a = false := by simpa using h
      constructor
      · rintro hx
        obtain rfl : a = x := by simpa using hx
        exact ⟨le_refl _, by omega, h', fun y hy hyx => by omega⟩
      · rintro ⟨h1, h2, h3, h4⟩
        rcases Nat.eq_or_lt_of_le h1 with rfl | hlt
        · rfl
        · exact absurd (h4 a (le_refl _) hlt) (by simp [h'])

/-- The check of a longer range goes on where the check of the shorter one ended. -/
theorem firstInaccessible_add (ok : Nat → Bool) (a n k : Nat) :
    firstInaccessible ok a (n + k) = (firstInaccessible ok a n).or (firstInaccessible ok (a + n) k) := by
  induction n generalizing a with
  | zero => simp [firstInaccessible]
  | succ n ih =>
    rw [show n + 1 + k = n + k + 1 by omega]
    simp only [firstInaccessible]
    split
    · rw [ih, show a + 1 + n = a + (n + 1) by omega]
    · rfl

/-- No address at or above 2^AW is readable (R52, R54). -/
theorem readableAt_lt {s : State} {a : Nat} (h : readableAt s a = true) : a < 2 ^ s.params.aw := by
  simp only [readableAt, Bool.and_eq_true, decide_eq_true_eq] at h
  exact h.1

/-- No address at or above 2^AW is writable (R53, R54). -/
theorem writableAt_lt {s : State} {a : Nat} (h : writableAt s a = true) : a < 2 ^ s.params.aw := by
  simp only [writableAt, Bool.and_eq_true, decide_eq_true_eq] at h
  exact h.1

end Sys2Proof.Machine
end

