-- ==== Sys2Proof/Laws/Codec.lean ====
section
/-! SUPPORT. The laws of the codec's arithmetic: lengths, offsets, the bytes of a word, the block, the table entry and the
shuffle (R14, R15, R80, R102, R120, R140). -/

namespace Sys2Proof.Machine

/-! ## Byte lengths -/

theorem byteLength_pos (v : Word) : 1 ≤ byteLength v := by unfold byteLength; split_ifs <;> omega

theorem byteLength_le (v : Word) : byteLength v ≤ 4 := by unfold byteLength; split_ifs <;> omega

/-- A value fits in its byte length. -/
theorem toNat_lt_of_byteLength (v : Word) : v.toNat < 2 ^ (8 * byteLength v) := by
  have := v.isLt
  unfold byteLength
  split_ifs <;> simp_all [BitVec.le_def] <;> omega

/-! ## Selector fields, lengths and offsets -/

theorem valueLength_pos (s : Byte) (k : Nat) : 1 ≤ valueLength s k := by unfold valueLength; omega

theorem valueLength_le (s : Byte) (k : Nat) : valueLength s k ≤ 4 := by
  have := (selectorField s k).isLt
  unfold valueLength; omega

@[simp] theorem payloadOffset_zero (s : Byte) : payloadOffset s 0 = 0 := rfl

@[simp] theorem payloadOffset_succ (s : Byte) (k : Nat) :
    payloadOffset s (k + 1) = payloadOffset s k + valueLength s k := rfl

theorem payloadLength_eq (s : Byte) :
    payloadLength s = valueLength s 0 + valueLength s 1 + valueLength s 2 + valueLength s 3 := by
  simp [payloadLength, payloadOffset]

/-- A value's bytes lie inside the payload. -/
theorem payloadOffset_add_lt (s : Byte) (k : Fin 4) {i : Nat} (h : i < valueLength s k.val) :
    payloadOffset s k.val + i < payloadLength s := by
  have h1 := valueLength_pos s 1
  have h2 := valueLength_pos s 2
  have h3 := valueLength_pos s 3
  rw [payloadLength_eq]
  fin_cases k <;> simp [payloadOffset] at h ⊢ <;> omega

theorem payloadLength_ge (s : Byte) : 4 ≤ payloadLength s := by
  have := valueLength_pos s 0; have := valueLength_pos s 1; have := valueLength_pos s 2; have := valueLength_pos s 3
  rw [payloadLength_eq]; omega

theorem payloadLength_le (s : Byte) : payloadLength s ≤ 16 := by
  have := valueLength_le s 0; have := valueLength_le s 1; have := valueLength_le s 2; have := valueLength_le s 3
  rw [payloadLength_eq]; omega

theorem blockLength_eq (s : Byte) : blockLength s = 1 + payloadLength s := rfl

theorem blockLength_ge (s : Byte) : 5 ≤ blockLength s := by have := payloadLength_ge s; unfold blockLength; omega

theorem blockLength_le (s : Byte) : blockLength s ≤ 17 := by have := payloadLength_le s; unfold blockLength; omega

/-- A block length survives its 32-bit register. -/
@[simp] theorem toNat_ofNat_blockLength (s : Byte) : (BitVec.ofNat 32 (blockLength s)).toNat = blockLength s := by
  have := blockLength_le s
  simp; omega

theorem selectorField_toNat (n : Nat) (k : Nat) :
    (selectorField (BitVec.ofNat 8 n) k).toNat = n % 256 / 2 ^ (6 - 2 * k) % 4 := by
  simp [selectorField, BitVec.extractLsb'_toNat, Nat.shiftRight_eq_div_pow]

/-- The selector a quad is given holds its byte lengths (R102). -/
theorem valueLength_selectorOf (v : Quad) (k : Fin 4) : valueLength (selectorOf v) k.val = byteLength v[k] := by
  have h0 := byteLength_pos v[0]; have g0 := byteLength_le v[0]
  have h1 := byteLength_pos v[1]; have g1 := byteLength_le v[1]
  have h2 := byteLength_pos v[2]; have g2 := byteLength_le v[2]
  have h3 := byteLength_pos v[3]; have g3 := byteLength_le v[3]
  fin_cases k <;> simp only [valueLength, selectorOf, selectorField_toNat] <;> simp <;> omega

/-- GVENC's block length is the one its selector tells (R83). -/
theorem blockLength_selectorOf (v : Quad) : blockLength (selectorOf v) = quadBlockLength v := by
  have h0 : _ = byteLength v[0] := valueLength_selectorOf v 0
  have h1 : _ = byteLength v[1] := valueLength_selectorOf v 1
  have h2 : _ = byteLength v[2] := valueLength_selectorOf v 2
  have h3 : _ = byteLength v[3] := valueLength_selectorOf v 3
  rw [blockLength, payloadLength_eq, quadBlockLength, ← h0, ← h1, ← h2, ← h3]
  exact (by omega : ∀ a b c d : Nat, 1 + (a + b + c + d) = 1 + a + b + c + d) _ _ _ _

theorem quadBlockLength_ge (v : Quad) : 5 ≤ quadBlockLength v := blockLength_selectorOf v ▸ blockLength_ge _

theorem quadBlockLength_le (v : Quad) : quadBlockLength v ≤ 17 := blockLength_selectorOf v ▸ blockLength_le _

@[simp] theorem toNat_ofNat_quadBlockLength (v : Quad) :
    (BitVec.ofNat 32 (quadBlockLength v)).toNat = quadBlockLength v := by
  have := quadBlockLength_le v
  simp; omega

/-! ## The block of a quad -/

@[simp] theorem littleEndianBytes_length (v : Word) (n : Nat) : (littleEndianBytes v n).length = n := by
  simp [littleEndianBytes]

@[simp] theorem littleEndianBytes_get (v : Word) (n i : Nat) (h : i < (littleEndianBytes v n).length) :
    (littleEndianBytes v n)[i] = wordByte v i := by simp [littleEndianBytes]

theorem blockOf_length (v : Quad) : (blockOf v).length = quadBlockLength v := by
  simp [blockOf, payloadOf, quadBlockLength]; omega

@[simp] theorem blockOf_get_zero (v : Quad) (h : 0 < (blockOf v).length) : (blockOf v)[0] = selectorOf v := rfl

@[simp] theorem littleEndianBytes_get? (v : Word) (n i : Nat) (h : i < n) :
    (littleEndianBytes v n)[i]? = some (wordByte v i) := by simp [littleEndianBytes, h]

/-- Byte i of value k stands in the payload after the bytes of the values before it (R80). -/
theorem payloadOf_get? (v : Quad) (k : Fin 4) {i : Nat} (hi : i < byteLength v[k]) :
    (payloadOf v)[payloadOffset (selectorOf v) k.val + i]? = some (wordByte v[k] i) := by
  have h0 : _ = byteLength v[0] := valueLength_selectorOf v 0
  have h1 : _ = byteLength v[1] := valueLength_selectorOf v 1
  have h2 : _ = byteLength v[2] := valueLength_selectorOf v 2
  simp only [Fin.val_zero, Fin.val_one, Fin.val_two] at h0 h1 h2
  unfold payloadOf
  match k with
  | 0 =>
    have hi : i < byteLength v[0] := hi
    rw [List.getElem?_append_left (by simp; omega), List.getElem?_append_left (by simp; omega),
      List.getElem?_append_left (by simpa using hi)]
    simpa using littleEndianBytes_get? v[0] _ _ hi
  | 1 =>
    have hi : i < byteLength v[1] := hi
    have hp : payloadOffset (selectorOf v) (1 : Fin 4).val = byteLength v[0] := by simp [payloadOffset, h0]
    rw [hp, List.getElem?_append_left (by simp; omega), List.getElem?_append_left (by simp; omega),
      List.getElem?_append_right (by simp)]
    simpa using littleEndianBytes_get? v[1] _ _ hi
  | 2 =>
    have hi : i < byteLength v[2] := hi
    have hp : payloadOffset (selectorOf v) (2 : Fin 4).val = byteLength v[0] + byteLength v[1] := by
      simp [payloadOffset, h0, h1]
    rw [hp, List.getElem?_append_left (by simp; omega), List.getElem?_append_right (by simp)]
    simpa using littleEndianBytes_get? v[2] _ _ hi
  | 3 =>
    have hi : i < byteLength v[3] := hi
    have hp : payloadOffset (selectorOf v) (3 : Fin 4).val
        = byteLength v[0] + byteLength v[1] + byteLength v[2] := by
      rw [← h0, ← h1, ← h2, ← Nat.zero_add (valueLength (selectorOf v) 0)]; rfl
    rw [hp, List.getElem?_append_right (by simp; omega)]
    simpa [← Nat.add_assoc] using littleEndianBytes_get? v[3] _ _ hi

/-! ## The bytes of a word -/

theorem wordByte_toNat (v : Word) (i : Nat) : (wordByte v i).toNat = v.toNat / 2 ^ (8 * i) % 256 := by
  simp [wordByte, BitVec.extractLsb'_toNat, Nat.shiftRight_eq_div_pow]

theorem wordByte_getLsbD (v : Word) (i j : Nat) (h : j < 8) : (wordByte v i).getLsbD j = v.getLsbD (8 * i + j) := by
  simp [wordByte, h]

/-- Two words with the same four bytes are equal. -/
theorem word_ext {v w : Word} (h : ∀ b, b < 4 → wordByte v b = wordByte w b) : v = w := by
  apply BitVec.eq_of_getLsbD_eq
  intro i hi
  have := congrArg (fun x : Byte => x.getLsbD (i % 8)) (h (i / 8) (by omega))
  simp only [wordByte_getLsbD _ _ _ (show i % 8 < 8 by omega)] at this
  rwa [show 8 * (i / 8) + i % 8 = i by omega] at this

/-- The low L bytes of a word, weighted, are the word modulo 2^(8L). -/
theorem sum_wordByte (v : Word) (L : Nat) :
    ∑ i ∈ Finset.range L, (wordByte v i).toNat * 2 ^ (8 * i) = v.toNat % 2 ^ (8 * L) := by
  induction L with
  | zero => simp [Nat.mod_one]
  | succ L ih =>
    rw [Finset.sum_range_succ, ih, wordByte_toNat, show 8 * (L + 1) = 8 * L + 8 by omega, Nat.pow_add,
      Nat.mod_mul]
    ring

/-- Byte b of a little-endian value is the byte read at that place, or zero past the end. -/
theorem readValue_byte (m : Memory) (a n b : Nat) :
    Memory.readValue m a n / 2 ^ (8 * b) % 256 = if b < n then (Memory.read m (a + b)).toNat else 0 := by
  induction n generalizing a b with
  | zero => simp [Memory.readValue]
  | succ n ih =>
    have hr := (Memory.read m a).isLt
    cases b with
    | zero => simp [Memory.readValue]; omega
    | succ b =>
      have := ih (a + 1) b
      rw [Memory.readValue, show 8 * (b + 1) = 8 + 8 * b by omega, Nat.pow_add, ← Nat.div_div_eq_div_mul,
        show ((Memory.read m a).toNat + 256 * Memory.readValue m (a + 1) n) / 2 ^ 8
          = Memory.readValue m (a + 1) n by omega, this, show a + 1 + b = a + (b + 1) by omega]
      simp

/-- What GVDECS gives for byte b of value k (R110). -/
theorem scalarValue_byte (m : Memory) (p : Nat) (sel : Byte) (k : Fin 4) (b : Nat) :
    wordByte (scalarValue m p sel k) b =
      if b < valueLength sel k.val then Memory.read m (p + 1 + payloadOffset sel k.val + b) else 0 := by
  have hlt := Memory.readValue_lt m (p + 1 + payloadOffset sel k.val) (valueLength sel k.val)
  have hle : (256 : Nat) ^ valueLength sel k.val ≤ 256 ^ 4 := Nat.pow_le_pow_right (by omega) (valueLength_le _ _)
  apply BitVec.eq_of_toNat_eq
  rw [wordByte_toNat, scalarValue, BitVec.toNat_ofNat,
    Nat.mod_eq_of_lt (show _ < 2 ^ 32 from Nat.lt_of_lt_of_le hlt hle), readValue_byte]
  split <;> rfl

/-! ## The table, the shuffle and the lanes -/

/-- ZERO_FILL has bit 7 set (R3). -/
@[simp] theorem zeroFill_bit7 (p : Params) : p.zeroFill[7] = true := by
  rw [← BitVec.getLsbD_eq_getElem, Params.zeroFill, BitVec.getLsbD_append]; rfl

@[simp] theorem tableEntry_get (z s : Byte) (k b : Nat) (hk : k < 4) (hb : b < 4) :
    (tableEntry z s)[4 * k + b] = controlByte z s k b := by
  simp only [tableEntry, Vector.getElem_ofFn]
  congr 1 <;> omega

@[simp] theorem shuffleTable_get (z s : Byte) (h : s.toNat < 256) : (shuffleTable z)[s.toNat] = tableEntry z s := by
  simp [shuffleTable]

/-- An entry's sixteen bytes, lane after lane. -/
theorem tableEntry_toList (z s : Byte) :
    (tableEntry z s).toList =
      [controlByte z s 0 0, controlByte z s 0 1, controlByte z s 0 2, controlByte z s 0 3] ++
      [controlByte z s 1 0, controlByte z s 1 1, controlByte z s 1 2, controlByte z s 1 3] ++
      [controlByte z s 2 0, controlByte z s 2 1, controlByte z s 2 2, controlByte z s 2 3] ++
      [controlByte z s 3 0, controlByte z s 3 1, controlByte z s 3 2, controlByte z s 3 3] := rfl

/-- One lane of an entry: its indices in rising order, then ZERO_FILL. -/
theorem controlByte_lane (z s : Byte) (k : Nat) :
    [controlByte z s k 0, controlByte z s k 1, controlByte z s k 2, controlByte z s k 3] =
      (List.range' (payloadOffset s k) (valueLength s k)).map (BitVec.ofNat 8) ++
        List.replicate (4 - valueLength s k) z := by
  have h1 := valueLength_pos s k
  have h2 := valueLength_le s k
  have h : valueLength s k = 1 ∨ valueLength s k = 2 ∨ valueLength s k = 3 ∨ valueLength s k = 4 := by omega
  rcases h with h | h | h | h <;> simp [h, controlByte, List.range', List.replicate]

/-- Bit 7 of a payload index is 0. -/
theorem index_bit7 {n : Nat} (h : n < 16) : (BitVec.ofNat 8 n)[7] = false := by
  rw [← BitVec.getLsbD_eq_getElem, BitVec.getLsbD_ofNat, Nat.testBit_lt_two_pow (by omega), Bool.and_false]

/-- The shuffle takes byte b of lane k from the payload, or gives zero past the value's length (R146's argument). -/
theorem shuffleByte_controlByte (w : Bytes16) (z s : Byte) (k : Fin 4) (b : Nat) (hz : z[7] = true) :
    shuffleByte w (controlByte z s k.val b) =
      if h : b < valueLength s k.val then
        w[payloadOffset s k.val + b]'(by have := payloadOffset_add_lt s k h; have := payloadLength_le s; omega)
      else 0 := by
  unfold controlByte
  split
  · next h =>
    have h16 : payloadOffset s k.val + b < 16 := by
      have := payloadOffset_add_lt s k h; have := payloadLength_le s; omega
    have hbit : (BitVec.ofNat 8 (payloadOffset s k.val + b))[7] = false := by
      rw [← BitVec.getLsbD_eq_getElem, BitVec.getLsbD_ofNat, Nat.testBit_lt_two_pow (show payloadOffset s k.val + b < 2 ^ 7 by omega)]; rfl
    have hidx : ((BitVec.ofNat 8 (payloadOffset s k.val + b)).extractLsb' 0 4).toNat
        = payloadOffset s k.val + b := by
      simp [BitVec.extractLsb'_toNat]; omega
    simp [shuffleByte, hbit, hidx]
  · simp [shuffleByte, hz]

/-- The four bytes of a concatenation (R7). -/
theorem wordByte_append (b3 b2 b1 b0 : Byte) :
    wordByte (b3 ++ b2 ++ b1 ++ b0) 0 = b0 ∧ wordByte (b3 ++ b2 ++ b1 ++ b0) 1 = b1 ∧
      wordByte (b3 ++ b2 ++ b1 ++ b0) 2 = b2 ∧ wordByte (b3 ++ b2 ++ b1 ++ b0) 3 = b3 := by
  refine ⟨?_, ?_, ?_, ?_⟩ <;> (ext i hi; simp only [wordByte, BitVec.getElem_extractLsb', BitVec.getLsbD_append])
  · simp [hi]
  · simp [hi]
  · rw [if_neg (by omega), if_neg (by omega), if_pos (by omega)]; simp [show 8 * 2 + i - 8 - 8 = i by omega, hi]
  · rw [if_neg (by omega), if_neg (by omega), if_neg (by omega)]; simp [show 8 * 3 + i - 8 - 8 - 8 = i by omega, hi]

/-- Byte b of lane k is output byte 4k + b (R140). -/
theorem wordByte_laneWord (o : Bytes16) (k : Fin 4) (b : Nat) (hb : b < 4) :
    wordByte (laneWord o k) b = o[4 * k.val + b]'(by omega) := by
  obtain ⟨h0, h1, h2, h3⟩ := wordByte_append (o[4 * k.val + 3]) (o[4 * k.val + 2]) (o[4 * k.val + 1]) (o[4 * k.val])
  match b, hb with
  | 0, _ => exact h0
  | 1, _ => exact h1
  | 2, _ => exact h2
  | 3, _ => exact h3

@[simp] theorem lanes_get (o : Bytes16) (k : Fin 4) : (lanes o)[k] = laneWord o k := by simp [lanes]

/-- What GVDECV gives for byte b of lane k, the table being built (R141, R146). -/
theorem simdValue_byte (m : Memory) (a : Nat) (z s : Byte) (hz : z[7] = true) (k : Fin 4) (b : Nat) (hb : b < 4) :
    wordByte (laneWord (shuffle16 (Memory.window m a) (tableEntry z s)) k) b =
      if b < valueLength s k.val then Memory.read m (a + payloadOffset s k.val + b) else 0 := by
  rw [wordByte_laneWord _ _ _ hb]
  simp only [shuffle16, Vector.getElem_map, tableEntry_get _ _ _ _ k.isLt hb, shuffleByte_controlByte _ _ _ _ _ hz]
  split
  · rw [Memory.window_get, Nat.add_assoc]
  · rfl

end Sys2Proof.Machine
end

