-- ==== Sys2Proof/Laws/State.lean ====
section
/-! SUPPORT. One lemma per field per update of the state, true by rfl and tagged for simp, so that no proof unfolds a
record update. -/

namespace Sys2Proof.Machine

/-! ## Fault entry (R152) -/

@[simp] theorem raiseFault_params (code : FaultCode) (addr : Nat) (w : Word) (s : State) :
    (raiseFault code addr w s).params = s.params := rfl
@[simp] theorem raiseFault_regions (code : FaultCode) (addr : Nat) (w : Word) (s : State) :
    (raiseFault code addr w s).regions = s.regions := rfl
@[simp] theorem raiseFault_fault (code : FaultCode) (addr : Nat) (w : Word) (s : State) :
    (raiseFault code addr w s).fault = true := rfl
@[simp] theorem raiseFault_tableValid (code : FaultCode) (addr : Nat) (w : Word) (s : State) :
    (raiseFault code addr w s).tableValid = s.tableValid := rfl
@[simp] theorem raiseFault_fcode (code : FaultCode) (addr : Nat) (w : Word) (s : State) :
    (raiseFault code addr w s).fcode = code := rfl
@[simp] theorem raiseFault_faddr (code : FaultCode) (addr : Nat) (w : Word) (s : State) :
    (raiseFault code addr w s).faddr = truncAW s.params addr := rfl
@[simp] theorem raiseFault_fcmd (code : FaultCode) (addr : Nat) (w : Word) (s : State) :
    (raiseFault code addr w s).fcmd = w := rfl
@[simp] theorem raiseFault_v (code : FaultCode) (addr : Nat) (w : Word) (s : State) :
    (raiseFault code addr w s).v = s.v := rfl
@[simp] theorem raiseFault_r (code : FaultCode) (addr : Nat) (w : Word) (s : State) :
    (raiseFault code addr w s).r = s.r := rfl
@[simp] theorem raiseFault_len (code : FaultCode) (addr : Nat) (w : Word) (s : State) :
    (raiseFault code addr w s).len = s.len := rfl
@[simp] theorem raiseFault_inPtr (code : FaultCode) (addr : Nat) (w : Word) (s : State) :
    (raiseFault code addr w s).inPtr = s.inPtr := rfl
@[simp] theorem raiseFault_outPtr (code : FaultCode) (addr : Nat) (w : Word) (s : State) :
    (raiseFault code addr w s).outPtr = s.outPtr := rfl
@[simp] theorem raiseFault_tbl (code : FaultCode) (addr : Nat) (w : Word) (s : State) :
    (raiseFault code addr w s).tbl = s.tbl := rfl
@[simp] theorem raiseFault_mem (code : FaultCode) (addr : Nat) (w : Word) (s : State) :
    (raiseFault code addr w s).mem = s.mem := rfl
@[simp] theorem raiseFault_script (code : FaultCode) (addr : Nat) (w : Word) (s : State) :
    (raiseFault code addr w s).script = s.script := rfl
@[simp] theorem raiseFault_observed (code : FaultCode) (addr : Nat) (w : Word) (s : State) :
    (raiseFault code addr w s).observed = s.observed := rfl

/-! ## The host records a value (R76) -/

@[simp] theorem recordValue_params (d : Data) (s : State) :
    (recordValue d s).params = s.params := rfl
@[simp] theorem recordValue_regions (d : Data) (s : State) :
    (recordValue d s).regions = s.regions := rfl
@[simp] theorem recordValue_fault (d : Data) (s : State) :
    (recordValue d s).fault = s.fault := rfl
@[simp] theorem recordValue_tableValid (d : Data) (s : State) :
    (recordValue d s).tableValid = s.tableValid := rfl
@[simp] theorem recordValue_fcode (d : Data) (s : State) :
    (recordValue d s).fcode = s.fcode := rfl
@[simp] theorem recordValue_faddr (d : Data) (s : State) :
    (recordValue d s).faddr = s.faddr := rfl
@[simp] theorem recordValue_fcmd (d : Data) (s : State) :
    (recordValue d s).fcmd = s.fcmd := rfl
@[simp] theorem recordValue_v (d : Data) (s : State) :
    (recordValue d s).v = s.v := rfl
@[simp] theorem recordValue_r (d : Data) (s : State) :
    (recordValue d s).r = s.r := rfl
@[simp] theorem recordValue_len (d : Data) (s : State) :
    (recordValue d s).len = s.len := rfl
@[simp] theorem recordValue_inPtr (d : Data) (s : State) :
    (recordValue d s).inPtr = s.inPtr := rfl
@[simp] theorem recordValue_outPtr (d : Data) (s : State) :
    (recordValue d s).outPtr = s.outPtr := rfl
@[simp] theorem recordValue_tbl (d : Data) (s : State) :
    (recordValue d s).tbl = s.tbl := rfl
@[simp] theorem recordValue_mem (d : Data) (s : State) :
    (recordValue d s).mem = s.mem := rfl
@[simp] theorem recordValue_script (d : Data) (s : State) :
    (recordValue d s).script = s.script := rfl
@[simp] theorem recordValue_observed (d : Data) (s : State) :
    (recordValue d s).observed = s.observed ++ [d] := rfl

/-! ## Reset (R170) -/

@[simp] theorem platformReset_params (s : State) :
    (platformReset s).params = s.params := rfl
@[simp] theorem platformReset_regions (s : State) :
    (platformReset s).regions = s.regions := rfl
@[simp] theorem platformReset_fault (s : State) :
    (platformReset s).fault = State.reset.fault := rfl
@[simp] theorem platformReset_tableValid (s : State) :
    (platformReset s).tableValid = State.reset.tableValid := rfl
@[simp] theorem platformReset_fcode (s : State) :
    (platformReset s).fcode = State.reset.fcode := rfl
@[simp] theorem platformReset_faddr (s : State) :
    (platformReset s).faddr = State.reset.faddr := rfl
@[simp] theorem platformReset_fcmd (s : State) :
    (platformReset s).fcmd = State.reset.fcmd := rfl
@[simp] theorem platformReset_v (s : State) :
    (platformReset s).v = State.reset.v := rfl
@[simp] theorem platformReset_r (s : State) :
    (platformReset s).r = State.reset.r := rfl
@[simp] theorem platformReset_len (s : State) :
    (platformReset s).len = State.reset.len := rfl
@[simp] theorem platformReset_inPtr (s : State) :
    (platformReset s).inPtr = State.reset.inPtr := rfl
@[simp] theorem platformReset_outPtr (s : State) :
    (platformReset s).outPtr = State.reset.outPtr := rfl
@[simp] theorem platformReset_tbl (s : State) :
    (platformReset s).tbl = State.reset.tbl := rfl
@[simp] theorem platformReset_mem (s : State) :
    (platformReset s).mem = s.mem := rfl
@[simp] theorem platformReset_script (s : State) :
    (platformReset s).script = s.script := rfl
@[simp] theorem platformReset_observed (s : State) :
    (platformReset s).observed = s.observed := rfl

/-! ## GVTBL's writes (R124) -/

@[simp] theorem buildTable_params (s : State) :
    (buildTable s).params = s.params := rfl
@[simp] theorem buildTable_regions (s : State) :
    (buildTable s).regions = s.regions := rfl
@[simp] theorem buildTable_fault (s : State) :
    (buildTable s).fault = s.fault := rfl
@[simp] theorem buildTable_tableValid (s : State) :
    (buildTable s).tableValid = true := rfl
@[simp] theorem buildTable_fcode (s : State) :
    (buildTable s).fcode = s.fcode := rfl
@[simp] theorem buildTable_faddr (s : State) :
    (buildTable s).faddr = s.faddr := rfl
@[simp] theorem buildTable_fcmd (s : State) :
    (buildTable s).fcmd = s.fcmd := rfl
@[simp] theorem buildTable_v (s : State) :
    (buildTable s).v = s.v := rfl
@[simp] theorem buildTable_r (s : State) :
    (buildTable s).r = s.r := rfl
@[simp] theorem buildTable_len (s : State) :
    (buildTable s).len = s.len := rfl
@[simp] theorem buildTable_inPtr (s : State) :
    (buildTable s).inPtr = s.inPtr := rfl
@[simp] theorem buildTable_outPtr (s : State) :
    (buildTable s).outPtr = s.outPtr := rfl
@[simp] theorem buildTable_tbl (s : State) :
    (buildTable s).tbl = shuffleTable s.params.zeroFill := rfl
@[simp] theorem buildTable_mem (s : State) :
    (buildTable s).mem = s.mem := rfl
@[simp] theorem buildTable_script (s : State) :
    (buildTable s).script = s.script := rfl
@[simp] theorem buildTable_observed (s : State) :
    (buildTable s).observed = s.observed := rfl

/-! ## The register map's writable registers (R39, R40) -/

@[simp] theorem writeReg_v (s : State) (d : Data) (k : Fin 4) :
    writeReg s d (.v k) = { s with v := s.v.set k (d.setWidth 32) } := rfl
@[simp] theorem writeReg_inPtr (s : State) (d : Data) :
    writeReg s d .inPtr = { s with inPtr := truncAW s.params d.toNat } := rfl
@[simp] theorem writeReg_outPtr (s : State) (d : Data) :
    writeReg s d .outPtr = { s with outPtr := truncAW s.params d.toNat } := rfl
@[simp] theorem writeReg_r (s : State) (d : Data) (k : Fin 4) : writeReg s d (.r k) = s := rfl
@[simp] theorem writeReg_len (s : State) (d : Data) : writeReg s d .len = s := rfl
@[simp] theorem writeReg_status (s : State) (d : Data) : writeReg s d .status = s := rfl
@[simp] theorem writeReg_caps (s : State) (d : Data) : writeReg s d .caps = s := rfl
@[simp] theorem writeReg_faddr (s : State) (d : Data) : writeReg s d .faddr = s := rfl
@[simp] theorem writeReg_fcmd (s : State) (d : Data) : writeReg s d .fcmd = s := rfl
@[simp] theorem writeReg_cmd (s : State) (d : Data) : writeReg s d .cmd = s := rfl

/-- The memory after reset is canonical. -/
theorem reset_memory_wf : Memory.wf State.reset.mem := by decide

/-- The accessibility of an address depends on the platform alone. -/
theorem readableAt_congr {s t : State} (hp : t.params = s.params) (hg : t.regions = s.regions) :
    readableAt t = readableAt s := by funext a; simp [readableAt, hp, hg]

theorem writableAt_congr {s t : State} (hp : t.params = s.params) (hg : t.regions = s.regions) :
    writableAt t = writableAt s := by funext a; simp [writableAt, hp, hg]

end Sys2Proof.Machine
end

