-- ==== Sys2Proof/Laws/Commands.lean ====
section
/-! SUPPORT. For each command, once, everything it can do (its cases), and what it does when nothing is in its way. -/

namespace Sys2Proof.Machine

/-- A meaning of the GVC answers a next state, always: the state itself while FAULT = 1. -/
theorem unlessFaulted_eq_next {s k t : State} (h : unlessFaulted s k = .next t) :
    (s.fault = true ∧ t = s) ∨ (s.fault = false ∧ t = k) := by
  unfold unlessFaulted at h
  cases hf : s.fault <;> simp [hf] at h
  · exact .inr ⟨rfl, h.symm⟩
  · exact .inl ⟨rfl, h.symm⟩

theorem unlessFaulted_running {s : State} (k : State) (h : s.fault = false) : unlessFaulted s k = .next k := by
  simp [unlessFaulted, h]

theorem unlessFaulted_stopped {s : State} (k : State) (h : s.fault = true) : unlessFaulted s k = .next s := by
  simp [unlessFaulted, h]

/-! ## Addresses and slots -/

/-- AW is 32 or 64 (R1). -/
theorem Params.aw_cases (p : Params) : p.aw = 32 ∨ p.aw = 64 := by
  unfold Params.aw; cases p.addrWidth <;> simp [AddrWidth.bits]

/-- A truncated address is its number modulo 2^AW (R7, R54). -/
theorem truncAW_toNat (p : Params) (n : Nat) : (truncAW p n).toNat = n % 2 ^ p.aw := by
  rw [truncAW, BitVec.toNat_ofNat]
  rcases Params.aw_cases p with h | h <;> rw [h] <;> omega

theorem truncAW_lt (p : Params) (n : Nat) : (truncAW p n).toNat < 2 ^ p.aw := by
  rw [truncAW_toNat]; exact Nat.mod_lt _ (Nat.two_pow_pos _)

@[simp] theorem truncAW_zero (p : Params) : truncAW p 0 = 0 := by simp [truncAW]

/-- A slot's register is the one whose slot it is (R39). -/
theorem regOffset_of_regAt {off : Nat} {reg : Reg} (h : regAt off = some reg) : off = regOffset reg := by
  unfold regAt at h; split at h <;> simp_all <;> (subst h; rfl)

@[simp] theorem regAt_regOffset (reg : Reg) : regAt (regOffset reg) = some reg := by
  cases reg <;> first | rfl | (next k => fin_cases k <;> rfl)

/-! ## GVENC -/

theorem encodeAndAppend_cases (s : State) :
    (∃ a, firstInaccessible (writableAt s) s.outPtr.toNat (quadBlockLength s.v) = some a ∧
      encodeAndAppend s = raiseFault .writeFault a (encode .gvenc) s) ∨
    (firstInaccessible (writableAt s) s.outPtr.toNat (quadBlockLength s.v) = none ∧
      encodeAndAppend s = { s with
        mem := Memory.writeBytes s.mem s.outPtr.toNat (blockOf s.v)
        outPtr := truncAW s.params (s.outPtr.toNat + quadBlockLength s.v)
        len := BitVec.ofNat 32 (quadBlockLength s.v) }) := by
  unfold encodeAndAppend
  split
  · next a h => exact .inl ⟨a, h, rfl⟩
  · next h => exact .inr ⟨h, rfl⟩

/-- The selector byte in memory after the block is stored (R102). -/
theorem read_encoded_selector (s : State) :
    Memory.read (Memory.writeBytes s.mem s.outPtr.toNat (blockOf s.v)) s.outPtr.toNat = selectorOf s.v :=
  Memory.read_writeBytes_inside _ _ _ 0 (by have := quadBlockLength_ge s.v; rw [blockOf_length]; omega)

/-- Byte i of value k in memory after the block is stored (R80, R100). -/
theorem read_encoded_value (s : State) (k : Fin 4) {i : Nat} (hi : i < byteLength s.v[k]) :
    Memory.read (Memory.writeBytes s.mem s.outPtr.toNat (blockOf s.v))
      (s.outPtr.toNat + 1 + payloadOffset (selectorOf s.v) k.val + i) = wordByte s.v[k] i := by
  have hb := payloadOf_get? s.v k hi
  have hlt : payloadOffset (selectorOf s.v) k.val + i < (payloadOf s.v).length := by
    by_contra hc
    rw [List.getElem?_eq_none (by omega)] at hb; cases hb
  have h := Memory.read_writeBytes_inside s.mem s.outPtr.toNat (blockOf s.v)
    (payloadOffset (selectorOf s.v) k.val + i + 1) (by simpa [blockOf] using hlt)
  rw [show s.outPtr.toNat + 1 + payloadOffset (selectorOf s.v) k.val + i
    = s.outPtr.toNat + (payloadOffset (selectorOf s.v) k.val + i + 1) by omega, h]
  rw [List.getElem?_eq_getElem hlt] at hb
  exact Option.some.inj hb

/-! ## GVDECS -/

/-- The whole read set of GVDECS, checked in one pass, the selector first (R58, R153). -/
theorem decodeScalar_cases (s : State) :
    (∃ a, firstInaccessible (readableAt s) s.inPtr.toNat (blockLength (Memory.read s.mem s.inPtr.toNat)) = some a ∧
      decodeScalar s = raiseFault .readFault a (encode .gvdecs) s) ∨
    (firstInaccessible (readableAt s) s.inPtr.toNat (blockLength (Memory.read s.mem s.inPtr.toNat)) = none ∧
      decodeScalar s = { s with
        r := Vector.ofFn (scalarValue s.mem s.inPtr.toNat (Memory.read s.mem s.inPtr.toNat))
        len := BitVec.ofNat 32 (blockLength (Memory.read s.mem s.inPtr.toNat)) }) := by
  rw [blockLength, firstInaccessible_add]
  unfold decodeScalar
  cases h : firstInaccessible (readableAt s) s.inPtr.toNat 1 with
  | some a => exact .inl ⟨a, rfl, rfl⟩
  | none =>
    cases h' : firstInaccessible (readableAt s) (s.inPtr.toNat + 1)
        (payloadLength (Memory.read s.mem s.inPtr.toNat)) with
    | some a => exact .inl ⟨a, rfl, rfl⟩
    | none => exact .inr ⟨rfl, rfl⟩

/-! ## GVTBRD -/

theorem readTableEntry_cases (sel : Byte) (s : State) :
    (s.tableValid = false ∧ readTableEntry sel s = raiseFault .tableNotBuilt 0 (encode (.gvtbrd sel)) s) ∨
    (s.tableValid = true ∧ readTableEntry sel s = { s with r := lanes (s.tbl[sel.toNat]'(sel.isLt)) }) := by
  unfold readTableEntry
  cases h : s.tableValid <;> simp

/-! ## GVDECV -/

theorem decodeSimd_cases (s : State) :
    (s.params.hasSimd = false ∧ decodeSimd s = raiseFault .illegalCmd 0 (encode .gvdecv) s) ∨
    (s.params.hasSimd = true ∧ s.tableValid = false ∧
      decodeSimd s = raiseFault .tableNotBuilt 0 (encode .gvdecv) s) ∨
    (s.params.hasSimd = true ∧ s.tableValid = true ∧
      ∃ a, firstInaccessible (readableAt s) s.inPtr.toNat 17 = some a ∧
        decodeSimd s = raiseFault .readFault a (encode .gvdecv) s) ∨
    (s.params.hasSimd = true ∧ s.tableValid = true ∧
      firstInaccessible (readableAt s) s.inPtr.toNat 17 = none ∧ decodeSimd s = shuffleDecode s) := by
  unfold decodeSimd
  cases h1 : s.params.hasSimd <;> cases h2 : s.tableValid <;> simp
  split
  · next a h => exact .inl ⟨a, h, rfl⟩
  · next h => exact .inr ⟨h, rfl⟩

/-- With the table built, what GVDECV writes is what GVDECS would (the argument of R146). -/
theorem shuffleDecode_eq_scalar {s : State} (ht : s.tbl = shuffleTable s.params.zeroFill) :
    shuffleDecode s = { s with
      r := Vector.ofFn (scalarValue s.mem s.inPtr.toNat (Memory.read s.mem s.inPtr.toNat))
      len := BitVec.ofNat 32 (blockLength (Memory.read s.mem s.inPtr.toNat)) } := by
  have h : (shuffleDecode s).r
      = Vector.ofFn (scalarValue s.mem s.inPtr.toNat (Memory.read s.mem s.inPtr.toNat)) := by
    apply Vector.ext
    intro k hk
    refine word_ext fun b hb => ?_
    have hl : (shuffleDecode s).r[k] = laneWord (shuffle16 (Memory.window s.mem (s.inPtr.toNat + 1))
        (tableEntry s.params.zeroFill (Memory.read s.mem s.inPtr.toNat))) ⟨k, hk⟩ := by
      simp only [shuffleDecode, ht, shuffleTable_get, lanes, Vector.getElem_ofFn]
    rw [hl, simdValue_byte _ _ _ _ (zeroFill_bit7 _) _ _ hb, Vector.getElem_ofFn, scalarValue_byte]
  rw [← h]; rfl

/-! ## All commands -/

/-- What a command leaves when the GVC is not stopped. -/
def commandResult (i : Instr) (s : State) : State :=
  match i with
  | .gvenc => encodeAndAppend s
  | .gvdecs => decodeScalar s
  | .gvtbl => buildTable s
  | .gvtbrd sel => readTableEntry sel s
  | .gvdecv => decodeSimd s

theorem exec_eq (i : Instr) (s : State) : exec i s = unlessFaulted s (commandResult i s) := by cases i <;> rfl

theorem exec_running {s : State} (i : Instr) (h : s.fault = false) : exec i s = .next (commandResult i s) := by
  rw [exec_eq, unlessFaulted_running _ h]

theorem exec_eq_next {i : Instr} {s t : State} (h : exec i s = .next t) :
    (s.fault = true ∧ t = s) ∨ (s.fault = false ∧ t = commandResult i s) := unlessFaulted_eq_next (exec_eq i s ▸ h)

/-- No command writes V, IN_PTR, the platform's data or the host's (R28, R31, R37). -/
theorem commandResult_frame (i : Instr) (s : State) :
    (commandResult i s).params = s.params ∧ (commandResult i s).regions = s.regions ∧
      (commandResult i s).v = s.v ∧ (commandResult i s).inPtr = s.inPtr ∧
      (commandResult i s).script = s.script ∧ (commandResult i s).observed = s.observed := by
  cases i with
  | gvenc => rcases encodeAndAppend_cases s with ⟨a, -, h⟩ | ⟨-, h⟩ <;> simp [commandResult, h]
  | gvdecs => rcases decodeScalar_cases s with ⟨a, -, h⟩ | ⟨-, h⟩ <;> simp [commandResult, h]
  | gvtbl => simp [commandResult]
  | gvtbrd sel => rcases readTableEntry_cases sel s with ⟨-, h⟩ | ⟨-, h⟩ <;> simp [commandResult, h]
  | gvdecv =>
    rcases decodeSimd_cases s with ⟨-, h⟩ | ⟨-, -, h⟩ | ⟨-, -, a, -, h⟩ | ⟨-, -, -, h⟩ <;>
      simp [commandResult, h, shuffleDecode]

end Sys2Proof.Machine
end

