-- ==== Sys2Proof/Laws/Encoding.lean ====
section
/-! SUPPORT. The command word as a number, and its fields by division (30_encoding.md R70). -/

namespace Sys2Proof

theorem opField_toNat (w : Word) : (opField w).toNat = w.toNat % 16 := by
  simp [opField, BitVec.extractLsb'_toNat]

theorem rsv0Field_toNat (w : Word) : (rsv0Field w).toNat = w.toNat / 16 % 16 := by
  simp [rsv0Field, BitVec.extractLsb'_toNat, Nat.shiftRight_eq_div_pow]

theorem selField_toNat (w : Word) : (selField w).toNat = w.toNat / 256 % 256 := by
  simp [selField, BitVec.extractLsb'_toNat, Nat.shiftRight_eq_div_pow]

theorem rsv1Field_toNat (w : Word) : (rsv1Field w).toNat = w.toNat / 65536 % 65536 := by
  simp [rsv1Field, BitVec.extractLsb'_toNat, Nat.shiftRight_eq_div_pow]

theorem commandWord_toNat (op : BitVec 4) (sel : Byte) : (commandWord op sel).toNat = sel.toNat * 256 + op.toNat := by
  have h1 := op.isLt
  have h2 : (commandWord op sel).toNat = ((0#16 ++ sel).toNat <<< 4 ||| 0) <<< 4 ||| op.toNat := by
    show ((0#16 ++ sel ++ 0#4 ++ op : BitVec (16 + 8 + 4 + 4))).toNat = _
    rw [BitVec.toNat_append, BitVec.toNat_append]; rfl
  rw [h2, ← Nat.shiftLeft_add_eq_or_of_lt h1, Nat.shiftLeft_eq, BitVec.toNat_append]
  simp [Nat.shiftLeft_eq]; omega

/-- Two words with the same four fields are equal. -/
theorem word_eq_of_fields {w w' : Word} (h1 : opField w = opField w') (h2 : rsv0Field w = rsv0Field w')
    (h3 : selField w = selField w') (h4 : rsv1Field w = rsv1Field w') : w = w' := by
  have g1 := congrArg BitVec.toNat h1; have g2 := congrArg BitVec.toNat h2
  have g3 := congrArg BitVec.toNat h3; have g4 := congrArg BitVec.toNat h4
  rw [opField_toNat, opField_toNat] at g1; rw [rsv0Field_toNat, rsv0Field_toNat] at g2
  rw [selField_toNat, selField_toNat] at g3; rw [rsv1Field_toNat, rsv1Field_toNat] at g4
  have := w.isLt; have := w'.isLt
  apply BitVec.eq_of_toNat_eq; omega

@[simp] theorem opField_commandWord (op : BitVec 4) (sel : Byte) : opField (commandWord op sel) = op := by
  have := op.isLt
  apply BitVec.eq_of_toNat_eq; rw [opField_toNat, commandWord_toNat]; omega

@[simp] theorem rsv0Field_commandWord (op : BitVec 4) (sel : Byte) : rsv0Field (commandWord op sel) = 0 := by
  have := op.isLt
  apply BitVec.eq_of_toNat_eq; rw [rsv0Field_toNat, commandWord_toNat]; show _ = 0; omega

@[simp] theorem selField_commandWord (op : BitVec 4) (sel : Byte) : selField (commandWord op sel) = sel := by
  have := op.isLt; have := sel.isLt
  apply BitVec.eq_of_toNat_eq; rw [selField_toNat, commandWord_toNat]; omega

@[simp] theorem rsv1Field_commandWord (op : BitVec 4) (sel : Byte) : rsv1Field (commandWord op sel) = 0 := by
  have := op.isLt; have := sel.isLt
  apply BitVec.eq_of_toNat_eq; rw [rsv1Field_toNat, commandWord_toNat]; show _ = 0; omega

/-- The cases of a word with no operand that decodes. -/
theorem decodePlain_eq_ok {w : Word} {i j : Instr} :
    decodePlain w i = .ok j ↔ rsv0Field w = 0 ∧ rsv1Field w = 0 ∧ selField w = 0 ∧ j = i := by
  unfold decodePlain
  split_ifs <;> simp_all <;> tauto

/-- The cases of GVTBRD's word that decodes. -/
theorem decodeTableRead_eq_ok {w : Word} {j : Instr} :
    decodeTableRead w = .ok j ↔ rsv0Field w = 0 ∧ rsv1Field w = 0 ∧ j = .gvtbrd (selField w) := by
  unfold decodeTableRead
  split_ifs <;> simp_all <;> tauto

/-- Everything that decodes, by opcode (R71, R72). -/
theorem decode_cases {hasSimd : Bool} {w : Word} {i : Instr} (h : decode hasSimd w = .ok i) :
    (opField w = 1 ∧ decodePlain w .gvenc = .ok i) ∨ (opField w = 2 ∧ decodePlain w .gvdecs = .ok i) ∨
      (opField w = 3 ∧ decodePlain w .gvtbl = .ok i) ∨ (opField w = 4 ∧ decodeTableRead w = .ok i) ∨
      (opField w = 5 ∧ hasSimd = true ∧ decodePlain w .gvdecv = .ok i) := by
  have key : ∀ n : Nat, (opField w).toNat = n → n < 16 → opField w = BitVec.ofNat 4 n := fun n hn _ =>
    BitVec.eq_of_toNat_eq (by rw [hn, BitVec.toNat_ofNat]; omega)
  unfold decode at h
  split at h
  · next hn => exact .inl ⟨key 1 hn (by omega), h⟩
  · next hn => exact .inr (.inl ⟨key 2 hn (by omega), h⟩)
  · next hn => exact .inr (.inr (.inl ⟨key 3 hn (by omega), h⟩))
  · next hn => exact .inr (.inr (.inr (.inl ⟨key 4 hn (by omega), h⟩)))
  · next hn =>
    split at h
    · next hs => exact .inr (.inr (.inr (.inr ⟨key 5 hn (by omega), hs, h⟩)))
    · simp at h
  · simp at h

end Sys2Proof
end

