-- ==== Sys2Proof/Laws/PerInstr.lean ====
section
/-! SUPPORT. Statements about the commands as syntax, one lemma per constructor: the word of a command has its reserved
fields zero, and SEL zero but for GVTBRD (30_encoding.md R70). -/

namespace Sys2Proof.Laws.ReservedFieldsZero

/-- The operand SEL of a command, zero where it takes none. -/
def operandOf : Instr → Byte
  | .gvenc => 0
  | .gvdecs => 0
  | .gvtbl => 0
  | .gvtbrd s => s
  | .gvdecv => 0

/-- RSV0 and RSV1 are zero in the command's word, and SEL is its operand. -/
def Statement (i : Instr) : Prop :=
  rsv0Field (encode i) = 0 ∧ rsv1Field (encode i) = 0 ∧ selField (encode i) = operandOf i

theorem gvenc : Statement .gvenc := ⟨rfl, rfl, rfl⟩
theorem gvdecs : Statement .gvdecs := ⟨rfl, rfl, rfl⟩
theorem gvtbl : Statement .gvtbl := ⟨rfl, rfl, rfl⟩
theorem gvtbrd (sel : Byte) : Statement (.gvtbrd sel) :=
  ⟨rsv0Field_commandWord 4 sel, rsv1Field_commandWord 4 sel, selField_commandWord 4 sel⟩
theorem gvdecv : Statement .gvdecv := ⟨rfl, rfl, rfl⟩

end Sys2Proof.Laws.ReservedFieldsZero
end

