-- ==== Sys2Proof/Laws/Steps.lean ====
section
/-! SUPPORT. Everything one step can do: the run has ended, or the first action is taken with the rest waiting. -/

namespace Sys2Proof.Machine

/-- A step with no action waiting changes nothing (R163, R180). -/
theorem step_ended {s : State} (h : s.script = []) : step s = .next s := by simp [step, takeNextAction, h]

/-- A step with an action waiting takes it, the rest still waiting. -/
theorem step_action {s : State} {act : Action} {rest : List Action} (h : s.script = act :: rest) :
    step s = performAction act { s with script := rest } := by simp [step, takeNextAction, h]

/-- The cases of a host write that answers a next state. -/
theorem hostWrite_cases {off : Nat} {d : Data} {s t : State} (h : hostWrite off d s = .next t) :
    (regAt off = some .cmd ∧ execute (d.setWidth 32) s = .next t) ∨
    (∃ k : Fin 4, regAt off = some (.v k) ∧ t = { s with v := s.v.set k (d.setWidth 32) }) ∨
    (regAt off = some .inPtr ∧ t = { s with inPtr := truncAW s.params d.toNat }) ∨
    (regAt off = some .outPtr ∧ t = { s with outPtr := truncAW s.params d.toNat }) ∨ t = s := by
  unfold hostWrite at h
  split at h
  · simp_all
  · next hr => exact .inl ⟨hr, h⟩
  · next reg hne hr => cases reg <;> simp_all

/-- The cases of an executed word that answers a next state. -/
theorem execute_cases {w : Word} {s t : State} (h : execute w s = .next t) :
    (s.fault = true ∧ t = s) ∨
    (s.fault = false ∧ ((∃ i, decode s.params.hasSimd w = .ok i ∧ t = commandResult i s) ∨
      (∃ e, decode s.params.hasSimd w = .error e ∧ t = raiseFault .illegalCmd 0 w s))) := by
  unfold execute at h
  split at h
  · next i hd =>
    rcases exec_eq_next h with h | ⟨hf, h⟩
    · exact .inl h
    · exact .inr ⟨hf, .inl ⟨i, hd, h⟩⟩
  · next e hd =>
    rcases unlessFaulted_eq_next h with h | ⟨hf, h⟩
    · exact .inl h
    · exact .inr ⟨hf, .inr ⟨e, hd, h⟩⟩

/-- A host memory write that answers a next state was below 2^AW. -/
theorem hostMemWrite_cases {a : Nat} {b : Byte} {s t : State} (h : hostMemWrite a b s = .next t) :
    a < 2 ^ s.params.aw ∧ t = { s with mem := Memory.write s.mem a b } := by
  unfold hostMemWrite at h
  split at h
  · next ha => exact ⟨ha, by simpa using h.symm⟩
  · simp at h

/-- A host memory read that answers a next state was below 2^AW, and only recorded a value. -/
theorem hostMemRead_cases {a : Nat} {s t : State} (h : hostMemRead a s = .next t) :
    a < 2 ^ s.params.aw ∧ t = recordValue ((Memory.read s.mem a).setWidth 64) s := by
  unfold hostMemRead at h
  split at h
  · next ha => exact ⟨ha, by simpa using h.symm⟩
  · simp at h

/-- The bus addresses of the register window and their offsets (R39). -/
theorem windowOffset_eq_some {p : Params} {a off : Nat} :
    windowOffset p a = some off ↔ a = p.regBase + off ∧ off < windowBytes := by
  unfold windowOffset
  split <;> simp <;> omega

@[simp] theorem windowOffset_busAddress (p : Params) (reg : Reg) :
    windowOffset p (busAddress p reg) = some (regOffset reg) := by
  refine windowOffset_eq_some.mpr ⟨rfl, ?_⟩
  cases reg <;> simp [regOffset, windowBytes] <;> omega

/-- An action that is a register write performs it. -/
theorem performAction_registerWrite {act : Action} {s : State} {off : Nat} {d : Data}
    (h : registerWrite s.params act = some (off, d)) : performAction act s = hostWrite off d s := by
  cases act with
  | regWrite => simp_all [registerWrite, performAction]
  | busWrite a e =>
    simp only [registerWrite, Option.map_eq_some_iff, Prod.mk.injEq] at h
    obtain ⟨o, ho, rfl, rfl⟩ := h
    simp [performAction, busWrite, ho]
  | regRead | busRead | memWrite | memRead | reset => simp [registerWrite] at h

/-- Everything an action that answers a next state can be and do. -/
theorem performAction_cases {act : Action} {s t : State} (h : performAction act s = .next t) :
    (∃ off d, registerWrite s.params act = some (off, d) ∧ hostWrite off d s = .next t) ∨
    (∃ off, (act = .regRead off ∨ ∃ a, act = .busRead a ∧ windowOffset s.params a = some off) ∧
      t = recordValue (hostRead s off) s) ∨
    (∃ a, ((∃ d, act = .busWrite a d) ∨ act = .busRead a) ∧ windowOffset s.params a = none ∧ t = s) ∨
    (∃ a b, act = .memWrite a b ∧ a < 2 ^ s.params.aw ∧ t = { s with mem := Memory.write s.mem a b }) ∨
    (∃ a, act = .memRead a ∧ a < 2 ^ s.params.aw ∧ t = recordValue ((Memory.read s.mem a).setWidth 64) s) ∨
    (act = .reset ∧ t = platformReset s) := by
  cases act with
  | regWrite off d => exact .inl ⟨off, d, rfl, h⟩
  | regRead off => exact .inr (.inl ⟨off, .inl rfl, by simpa [performAction] using h.symm⟩)
  | busWrite a d =>
    cases ho : windowOffset s.params a with
    | none => exact .inr (.inr (.inl ⟨a, .inl ⟨d, rfl⟩, ho, by simpa [performAction, busWrite, ho] using h.symm⟩))
    | some off =>
      exact .inl ⟨off, d, by simp [registerWrite, ho], by simpa [performAction, busWrite, ho] using h⟩
  | busRead a =>
    cases ho : windowOffset s.params a with
    | none => exact .inr (.inr (.inl ⟨a, .inr rfl, ho, by simpa [performAction, busRead, ho] using h.symm⟩))
    | some off =>
      exact .inr (.inl ⟨off, .inr ⟨a, rfl, ho⟩, by simpa [performAction, busRead, ho] using h.symm⟩)
  | memWrite a b => exact .inr (.inr (.inr (.inl ⟨a, b, rfl, hostMemWrite_cases h⟩)))
  | memRead a => exact .inr (.inr (.inr (.inr (.inl ⟨a, rfl, hostMemRead_cases h⟩))))
  | reset => exact .inr (.inr (.inr (.inr (.inr ⟨rfl, by simpa [performAction] using h.symm⟩))))

end Sys2Proof.Machine
end

