-- ==== Sys2Proof/Tests/Slice0.lean ====
section
/-! SUPPORT. The model's own tests: a refused ill-formed term, words written out from the spec's encoding, the vectors of
spec/95_test_vectors.md (each test names its vector), and a witness for the hypotheses of each statement. -/

namespace Sys2Proof.Tests

open Sys2Proof.Machine

/-! ## Small states -/

/-- A region that is readable and writable. -/
def both (base size : Nat) : Region := { base := base, size := size, readable := true, writable := true }

/-- Reset, with bytes in memory from `p` on, IN_PTR = p, and the given regions. -/
def decoding (p : Data) (bytes : List Byte) (regions : List Region) : State :=
  { State.reset with inPtr := p, mem := Memory.writeBytes [] p.toNat bytes, regions := regions }

/-- Reset with the table built. -/
def built (s : State) : State := { s with tbl := shuffleTable s.params.zeroFill, tableValid := true }

/-- Reset, with a quad in V, OUT_PTR = p, and the given regions. -/
def encoding (v : Quad) (p : Data) (regions : List Region) : State :=
  { State.reset with v := v, outPtr := p, regions := regions }

/-- The next state of an outcome. -/
def after (o : Host.Outcome State Fault Refusal) : State :=
  match o with
  | .next t => t
  | .fault _ => State.reset
  | .refused _ => State.reset

/-- n bytes of memory from a. -/
def bytesAt (s : State) (a n : Nat) : List Byte := (List.range n).map fun j => Memory.read s.mem (a + j)

/-- The whole address space of reset. -/
def everywhere : List Region := [both 0 (2 ^ 64)]

/-- STATUS as the host reads it. -/
def status (s : State) : Data := hostRead s 0x08

/-! ## Well-formedness and decoding -/

/-- The ill-formed command: GVDECV where HAS_SIMD = 0 (R73). -/
theorem test_illformed_gvdecv : Instr.wellFormed false .gvdecv = false := rfl

/-- X1, X3, X4, X6, X7, X9: words that are illegal, each by its case of R73. -/
theorem test_decode_reserved_opcode :
    decode true 0x00000000#32 = .error .reservedOpcode ∧ decode true 0x0000000F#32 = .error .reservedOpcode := by decide
theorem test_decode_reserved_bits :
    decode true 0x00000011#32 = .error .reservedBits ∧ decode true 0x00010004#32 = .error .reservedBits ∧
      decode true 0x80000003#32 = .error .reservedBits := by decide
theorem test_decode_sel : decode true 0x00000102#32 = .error .selNotZero := by decide

/-- X5: the largest operand. -/
theorem test_decode_gvtbrd_max : decodeTableWord 32 0b00000000000000001111111100000100 = some (.gvtbrd 0xFF) := by
  decide

/-! ## GVENC -/

def quadE9 : Quad := #v[0x12345678, 0x00ABCDEF, 0x1234, 0x56]

/-- E9: lengths 4, 3, 2, 1. -/
theorem test_gvenc_mixed :
    bytesAt (after (exec .gvenc (encoding quadE9 0x1000 everywhere))) 0x1000 11
      = [0xE4, 0x78, 0x56, 0x34, 0x12, 0xEF, 0xCD, 0xAB, 0x34, 0x12, 0x56] ∧
    (after (exec .gvenc (encoding quadE9 0x1000 everywhere))).outPtr = 0x100B ∧
    (after (exec .gvenc (encoding quadE9 0x1000 everywhere))).len = 11 := by decide +kernel

/-- E10, E11: the top of the address space. -/
theorem test_gvenc_top :
    (after (exec .gvenc (encoding #v[0, 0, 0, 0] (BitVec.ofNat 64 (2 ^ 64 - 5)) everywhere))).outPtr = 0 ∧
    status (after (exec .gvenc (encoding #v[0, 0, 0, 0] (BitVec.ofNat 64 (2 ^ 64 - 4)) everywhere))) = 0x41 ∧
    (after (exec .gvenc (encoding #v[0, 0, 0, 0] (BitVec.ofNat 64 (2 ^ 64 - 4)) everywhere))).faddr = 0 := by
  decide +kernel

/-! ## GVDECS -/

/-- D7 and E9's bytes: the quad comes back. -/
theorem test_gvdecs_mixed :
    (after (exec .gvdecs (decoding 0x1000
      [0xE4, 0x78, 0x56, 0x34, 0x12, 0xEF, 0xCD, 0xAB, 0x34, 0x12, 0x56] everywhere))).r = quadE9 ∧
    (after (exec .gvdecs (decoding 0x1000
      [0xE4, 0x78, 0x56, 0x34, 0x12, 0xEF, 0xCD, 0xAB, 0x34, 0x12, 0x56] everywhere))).len = 11 := by decide +kernel

/-- D10 (from reset, so TV = 0 in STATUS): the seventeenth byte is missing. -/
theorem test_gvdecs_short :
    status (after (exec .gvdecs (decoding 0x1000 (List.replicate 16 0xFF) [both 0x1000 16]))) = 0x31 ∧
    (after (exec .gvdecs (decoding 0x1000 (List.replicate 16 0xFF) [both 0x1000 16]))).faddr = 0x1010 := by
  decide +kernel

/-! ## GVTBL and GVTBRD -/

/-- T1 and the worked example of R124. -/
theorem test_gvtbl_entry :
    status (after (exec .gvtbl State.reset)) = 0x2 ∧
    ((after (exec .gvtbl State.reset)).tbl[0x41]).toList =
      [0x00, 0x01, 0x80, 0x80, 0x02, 0x80, 0x80, 0x80, 0x03, 0x80, 0x80, 0x80, 0x04, 0x05, 0x80, 0x80] := by
  decide +kernel

/-- T4. -/
theorem test_gvtbrd_mixed :
    (after (exec (.gvtbrd 0xE4) (after (exec .gvtbl State.reset)))).r =
      #v[0x03020100, 0x80060504, 0x80800807, 0x80808009] := by decide +kernel

/-- T6. -/
theorem test_gvtbrd_unbuilt :
    status (after (exec (.gvtbrd 0x41) State.reset)) = 0x21 ∧
    (after (exec (.gvtbrd 0x41) State.reset)).fcmd = 0x00004104 := by decide +kernel

/-! ## GVDECV -/

/-- V6: lengths 4, 3, 2, 1 and six pad bytes AA. -/
theorem test_gvdecv_mixed :
    (after (exec .gvdecv (built (decoding 0x1000
      [0xE4, 0x78, 0x56, 0x34, 0x12, 0xEF, 0xCD, 0xAB, 0x34, 0x12, 0x56, 0xAA, 0xAA, 0xAA, 0xAA, 0xAA, 0xAA]
      everywhere)))).r = quadE9 := by decide +kernel

/-- V8: the pad is missing. -/
theorem test_gvdecv_pad_missing :
    status (after (exec .gvdecv (built (decoding 0x1000 [0, 1, 2, 3, 4] [both 0x1000 5])))) = 0x33 ∧
    (after (exec .gvdecv (built (decoding 0x1000 [0, 1, 2, 3, 4] [both 0x1000 5])))).faddr = 0x1005 := by
  decide +kernel

/-! ## Host accesses, steps and text -/

/-- P1 step 1: CAPS with the default parameters. -/
theorem test_caps : hostRead State.reset 0x10 = 0x804001 := by decide

/-- X1, F1: an illegal word stops the GVC, and a stopped GVC ignores GVTBL. -/
theorem test_sticky_fault :
    status (after (hostWrite 0x00 0x0 State.reset)) = 0x11 ∧
    status (after (hostWrite 0x00 0x3 (after (hostWrite 0x00 0x0 State.reset)))) = 0x11 := by decide +kernel

/-- P5 steps 4-7, AW = 32: the lowest unwritable target byte, and IN_PTR keeps 32 bits. -/
theorem test_aw32 :
    (after (exec .gvenc
      { encoding #v[0xFFFFFFFF, 0, 0, 0] 0x4005 [both 0x4000 6] with
        params := { Config.defaultParams with addrWidth := .w32 } })).faddr = 0x4006 ∧
    (after (hostWrite 0x70 0x1FFFFFFFF
      { State.reset with params := { Config.defaultParams with addrWidth := .w32 } })).inPtr = 0xFFFFFFFF := by
  decide +kernel

/-- R76: case, comment, hexadecimal and the rejected index. -/
theorem test_assembler :
    parseLine "  GvTbrd 0x41 ; entry".toList = some (some (.gvtbrd 0x41)) ∧
    parseLine "wr IN_PTR, 4096".toList = some (some (.wr .inPtr 0x1000)) ∧
    parseLine "gvenc 1".toList = none ∧ parseLine " ; only a comment".toList = some none ∧
    assemble 0 0 (.gvtbrd 0x41) = some [.regWrite 0x00 0x00004104] ∧ assemble 0 0 (.gvtbrd 256) = none := by
  decide +kernel

/-- `withFetchWord` from reset: the very next step runs the command. -/
theorem test_fetch : (after (step (State.reset.withFetchWord 32 3))).tableValid = true := by decide +kernel

/-! ## Witnesses: for each statement of Obligations.lean that has hypotheses, states and operands that meet them all, at
the boundaries of their ranges where its clauses differ. `witness_<name>` belongs to `Obligations.<name>`. -/

/-- Reset with the zero quad and OUT_PTR at the last place the smallest block fits, and one byte further. -/
def fits : State := encoding #v[0, 0, 0, 0] (BitVec.ofNat 64 (2 ^ 64 - 5)) everywhere
def passesTop : State := encoding #v[0, 0, 0, 0] (BitVec.ofNat 64 (2 ^ 64 - 4)) everywhere

/-- Reset with the quad of E9 at 0x1000, every byte writable, and with only its first ten bytes writable. -/
def mixed : State := encoding quadE9 0x1000 everywhere
def mixedShort : State := encoding quadE9 0x1000 [both 0x1000 10]

/-- A block of the greatest length, every byte readable, and with its last byte unreadable. -/
def longest : State := decoding 0x1000 (List.replicate 17 0xFF) everywhere
def longestShort : State := decoding 0x1000 (List.replicate 17 0xFF) [both 0x1000 16]

/-- A block of the least length with nothing readable after it. -/
def shortest : State := built (decoding 0x1000 [0, 1, 2, 3, 4] [both 0x1000 5])

/-- GVENC has run on the quad of E9, IN_PTR is where the block stands, and the table is built. -/
def encoded : State :=
  built { decoding 0x1000 [0xE4, 0x78, 0x56, 0x34, 0x12, 0xEF, 0xCD, 0xAB, 0x34, 0x12, 0x56] everywhere with
    v := quadE9, outPtr := 0x100B }

/-- A stopped GVC. -/
def stopped : State := raiseFault .illegalCmd 0 0 State.reset

/-- A GVC without the SIMD path. -/
def noSimd : State := { State.reset with params := { Config.defaultParams with hasSimd := false } }

/-- Reset with the given host actions waiting. -/
def waiting (acts : List Action) : State := { State.reset with script := acts }

theorem witness_DecodeEncodeRoundTrip :
    Instr.wellFormed true .gvdecv = true ∧ Instr.wellFormed false (.gvtbrd 0xFF) = true ∧
    Instr.wellFormed false .gvenc = true := by decide

theorem witness_DecodedWordIsItsEncoding :
    decode false 0x0000FF04#32 = .ok (.gvtbrd 0xFF) ∧ decode true 0x00000005#32 = .ok .gvdecv := by decide

/-- X1: an illegal word never decodes to a command. -/
theorem zero_word_is_illegal (i : Instr) : decode true 0#32 ≠ .ok i := by
  rw [show decode true 0#32 = .error .reservedOpcode from rfl]; simp

theorem witness_IllegalWordsRaiseIllegalCmd :
    State.reset.fault = false ∧ ∀ i, decode State.reset.params.hasSimd ((0 : Data).setWidth 32) ≠ .ok i :=
  ⟨rfl, zero_word_is_illegal⟩

theorem witness_StepRunsTheDecodedCommand :
    (waiting [.regWrite 0x00 0xFFFFFFFF00000003]).script = .regWrite 0x00 0xFFFFFFFF00000003 :: [] ∧
    decode (waiting []).params.hasSimd ((0xFFFFFFFF00000003 : Data).setWidth 32) = .ok .gvtbl ∧
    0x0000FF04 < 2 ^ 32 ∧ decode State.reset.params.hasSimd (BitVec.ofNat 32 0x0000FF04) = .ok (.gvtbrd 0xFF) := by
  decide

theorem witness_ExecuteChecksFaultThenDecodes :
    stopped.fault = true ∧ (State.reset.fault = false ∧ ∀ i, decode State.reset.params.hasSimd 0#32 ≠ .ok i) ∧
    State.reset.fault = false ∧ decode State.reset.params.hasSimd 1#32 = .ok .gvenc :=
  ⟨rfl, ⟨rfl, zero_word_is_illegal⟩, rfl, rfl⟩

theorem witness_OnlyResetClearsTheFaultRecord :
    (stopped.fault = true ∧ step stopped = .next stopped ∧ ¬ resetNext stopped) ∧
    { stopped with script := [.reset] }.fault = true ∧
    step { stopped with script := [.reset] } = .next State.reset ∧ resetNext { stopped with script := [.reset] } :=
  ⟨⟨rfl, rfl, fun h => nomatch h⟩, rfl, rfl, [], rfl⟩

/-- One state for each fault cause. -/
theorem witness_EachFaultHasItsCause :
    (State.reset.fault = false ∧ (after (execute 0 State.reset)).fcode = .illegalCmd) ∧
    (State.reset.fault = false ∧ (after (execute 0x0000FF04 State.reset)).fcode = .tableNotBuilt) ∧
    (longestShort.fault = false ∧ (after (execute 0x00000002 longestShort)).fcode = .readFault) ∧
    (shortest.fault = false ∧ (after (execute 0x00000005 shortest)).fcode = .readFault) ∧
    mixedShort.fault = false ∧ (after (execute 0x00000001 mixedShort)).fcode = .writeFault ∧
    (after (execute 0x00000001 mixedShort)).fault = true := by decide +kernel

theorem witness_GvencAppendsTheBlockOrFaults :
    (mixedShort.fault = false ∧ Memory.wf mixedShort.mem ∧ mixedShort.outPtr.toNat < 2 ^ mixedShort.params.aw ∧
      lowestDenied (writableAt mixedShort) mixedShort.outPtr.toNat (quadBlockLength mixedShort.v) 0x100A) ∧
    fits.fault = false ∧ Memory.wf fits.mem ∧ fits.outPtr.toNat < 2 ^ fits.params.aw ∧
    allWritable fits fits.outPtr.toNat (quadBlockLength fits.v) := by decide +kernel

theorem witness_GvencBlockLayoutInMemory :
    mixed.fault = false ∧ Memory.wf mixed.mem ∧ allWritable mixed mixed.outPtr.toNat (quadBlockLength mixed.v) := by
  decide +kernel

/-- Every command answers a next state. -/
theorem exec_after (i : Instr) (s : State) : exec i s = .next (after (exec i s)) := by cases i <;> rfl

/-- GVENC completes on the quad of E9. -/
theorem gvenc_completes_on_mixed : (after (exec .gvenc mixed)).fault = false := by decide +kernel

theorem witness_GvencSelectorByte : ∃ s t : State, s.fault = false ∧ Memory.wf s.mem ∧ exec .gvenc s = .next t ∧
    t.fault = false := ⟨mixed, _, rfl, by decide, exec_after _ _, gvenc_completes_on_mixed⟩

/-- The last clause of the statement needs a zero value, the third a value of more than one byte. -/
theorem witness_GvencBlocksAreMinimal :
    (∃ s t : State, s.fault = false ∧ Memory.wf s.mem ∧ exec .gvenc s = .next t ∧ t.fault = false ∧ s.v.get 0 = 0) ∧
    ∃ s t : State, s.fault = false ∧ Memory.wf s.mem ∧ exec .gvenc s = .next t ∧ t.fault = false ∧
      1 < valueLength (Memory.read t.mem s.outPtr.toNat) 0 :=
  ⟨⟨fits, _, rfl, by decide, exec_after _ _, by decide +kernel⟩,
    mixed, _, rfl, by decide, exec_after _ _, by decide +kernel⟩

theorem witness_GvencPastTheTopFaultsAtZero :
    passesTop.fault = false ∧ passesTop.outPtr.toNat < 2 ^ passesTop.params.aw ∧
    2 ^ passesTop.params.aw < passesTop.outPtr.toNat + quadBlockLength passesTop.v ∧
    ∀ a, passesTop.outPtr.toNat ≤ a → a < 2 ^ passesTop.params.aw → writableAt passesTop a = true := by
  decide +kernel

/-- Between the two commands the host writes another quad to V. -/
theorem witness_ConsecutiveGvencBlocksAreBackToBack : ∃ s t t' u : State,
    s.fault = false ∧ exec .gvenc s = .next t ∧ t.fault = false ∧
    s.outPtr.toNat + quadBlockLength s.v < 2 ^ s.params.aw ∧ t'.outPtr = t.outPtr ∧
    sameInside t.mem t'.mem s.outPtr.toNat (quadBlockLength s.v) ∧ exec .gvenc t' = .next u ∧ u.fault = false ∧
    t'.v ≠ s.v :=
  ⟨mixed, _, { after (exec .gvenc mixed) with v := #v[0, 0, 0, 0xFFFFFFFF] }, _, rfl, exec_after _ _,
    gvenc_completes_on_mixed, by decide +kernel, rfl, fun _ _ => rfl, exec_after _ _, by decide +kernel⟩

/-- R114's block at the top, selector 0x01: GVDECS's sixth byte and GVDECV's window pass the top. -/
def topBlock : State := built (decoding (BitVec.ofNat 64 (2 ^ 64 - 5)) [0x01, 1, 2, 3, 4] everywhere)

theorem witness_DecodersPastTheTopFaultAtZero :
    (topBlock.fault = false ∧ topBlock.inPtr.toNat < 2 ^ topBlock.params.aw ∧
      ∀ a, topBlock.inPtr.toNat ≤ a → a < 2 ^ topBlock.params.aw → readableAt topBlock a = true) ∧
    2 ^ topBlock.params.aw < topBlock.inPtr.toNat + blockLength (Memory.read topBlock.mem topBlock.inPtr.toNat) ∧
    topBlock.params.hasSimd = true ∧ topBlock.tableValid = true ∧
    2 ^ topBlock.params.aw < topBlock.inPtr.toNat + 17 := by decide +kernel

theorem witness_AddressesPastTheTopAreDenied :
    2 ^ State.reset.params.aw ≤ 2 ^ 64 ∧ 2 ^ 64 - 1 < 2 ^ State.reset.params.aw := by decide

theorem witness_GvdecsDecodesTheBlockOrFaults :
    (longestShort.fault = false ∧ lowestDenied (readableAt longestShort) longestShort.inPtr.toNat
      (blockLength (Memory.read longestShort.mem longestShort.inPtr.toNat)) 0x1010) ∧
    (shortest.fault = false ∧ allReadable shortest shortest.inPtr.toNat
      (blockLength (Memory.read shortest.mem shortest.inPtr.toNat))) ∧
    longest.fault = false ∧ allReadable longest longest.inPtr.toNat
      (blockLength (Memory.read longest.mem longest.inPtr.toNat)) := by decide +kernel

/-- The two memories differ, in the byte after the block. -/
theorem witness_GvdecsDependsOnTheBlockAlone :
    exec .gvdecs shortest = .next (after (exec .gvdecs shortest)) ∧
    sameInside shortest.mem (Memory.write shortest.mem 0x1005 0xAA) shortest.inPtr.toNat
      (blockLength (Memory.read shortest.mem shortest.inPtr.toNat)) ∧
    Memory.write shortest.mem 0x1005 0xAA ≠ shortest.mem := ⟨exec_after _ _, by decide +kernel⟩

theorem witness_GvtblWritesEveryEntry : State.reset.fault = false := rfl

theorem witness_TableEntryProperties : ∃ z x : Byte, z[7] = true ∧ x ≠ 0 := ⟨0x80, 0xFF, by decide⟩

theorem witness_GvtblIsIdempotent :
    ((built State.reset).fault = false ∧ TableOk (built State.reset) ∧ (built State.reset).tableValid = true) ∧
    exec .gvtbl State.reset = .next (built State.reset) := ⟨⟨rfl, fun _ => rfl, rfl⟩, rfl⟩

theorem witness_GvtbrdCopiesTheEntryOrFaults :
    ((built State.reset).fault = false ∧ (built State.reset).tableValid = true) ∧
    State.reset.fault = false ∧ State.reset.tableValid = false := ⟨⟨rfl, rfl⟩, rfl, rfl⟩

theorem witness_GvdecvShufflesTheWindowOrFaults :
    (noSimd.fault = false ∧ noSimd.params.hasSimd = false) ∧
    (State.reset.fault = false ∧ State.reset.params.hasSimd = true ∧ State.reset.tableValid = false) ∧
    (shortest.fault = false ∧ shortest.params.hasSimd = true ∧ shortest.tableValid = true ∧
      lowestDenied (readableAt shortest) shortest.inPtr.toNat 17 0x1005) ∧
    encoded.fault = false ∧ encoded.params.hasSimd = true ∧ encoded.tableValid = true ∧
    allReadable encoded encoded.inPtr.toNat 17 := by decide +kernel

/-- The two memories differ, in the first pad byte. -/
theorem witness_PadBytesDoNotMatter :
    (exec .gvdecv encoded = .next (after (exec .gvdecv encoded)) ∧ TableOk encoded) ∧
    sameInside encoded.mem (Memory.write encoded.mem 0x100B 0xAA) encoded.inPtr.toNat
      (blockLength (Memory.read encoded.mem encoded.inPtr.toNat)) ∧
    Memory.write encoded.mem 0x100B 0xAA ≠ encoded.mem ∧ (after (exec .gvdecv encoded)).fault = false :=
  ⟨⟨exec_after _ _, fun _ => rfl⟩, by decide +kernel⟩

/-- Both decoders complete; both fault; only GVDECV faults. -/
theorem witness_DecodersAgree :
    (∃ s t u : State, s.fault = false ∧ s.params.hasSimd = true ∧ s.tableValid = true ∧ TableOk s ∧
      exec .gvdecs s = .next t ∧ exec .gvdecv s = .next u ∧ t.fault = false ∧ u.fault = false) ∧
    (∃ s t u : State, s.fault = false ∧ s.params.hasSimd = true ∧ s.tableValid = true ∧ TableOk s ∧
      exec .gvdecs s = .next t ∧ exec .gvdecv s = .next u ∧ t.fault = true) ∧
    ∃ s t u : State, s.fault = false ∧ s.params.hasSimd = true ∧ s.tableValid = true ∧ TableOk s ∧
      exec .gvdecs s = .next t ∧ exec .gvdecv s = .next u ∧ t.fault = false ∧ u.fault = true :=
  ⟨⟨encoded, _, _, rfl, rfl, rfl, fun _ => rfl, exec_after _ _, exec_after _ _, by decide +kernel⟩,
    ⟨built longestShort, _, _, rfl, rfl, rfl, fun _ => rfl, exec_after _ _, exec_after _ _, by decide +kernel⟩,
    shortest, _, _, rfl, rfl, rfl, fun _ => rfl, exec_after _ _, exec_after _ _, by decide +kernel⟩

theorem witness_ScalarRoundTrip : ∃ s t u : State,
    s.fault = false ∧ Memory.wf s.mem ∧ exec .gvenc s = .next t ∧ t.fault = false ∧ u.fault = false ∧
    u.inPtr = s.outPtr ∧ sameInside t.mem u.mem s.outPtr.toNat t.len.toNat ∧
    allReadable u u.inPtr.toNat t.len.toNat :=
  ⟨mixed, _, encoded, rfl, by decide, exec_after _ _, gvenc_completes_on_mixed, by decide +kernel⟩

theorem witness_SimdRoundTrip : ∃ s t u : State,
    s.fault = false ∧ Memory.wf s.mem ∧ exec .gvenc s = .next t ∧ t.fault = false ∧ u.fault = false ∧
    u.params.hasSimd = true ∧ u.tableValid = true ∧ TableOk u ∧ u.inPtr = s.outPtr ∧
    sameInside t.mem u.mem s.outPtr.toNat t.len.toNat ∧ allReadable u u.inPtr.toNat 17 :=
  ⟨mixed, _, encoded, rfl, by decide, exec_after _ _, gvenc_completes_on_mixed, rfl, rfl, rfl, fun _ => rfl, rfl,
    by decide +kernel⟩

/-- Each command completes from `encoded` (LenAfterEachCommand, and the third clause of CommandFrames). -/
theorem witness_LenAfterEachCommand :
    (∀ i, exec i encoded = .next (after (exec i encoded))) ∧ encoded.fault = false ∧
    (after (exec .gvenc encoded)).fault = false ∧ (after (exec .gvdecs encoded)).fault = false ∧
    (after (exec .gvtbl encoded)).fault = false ∧ (after (exec (.gvtbrd 0xFF) encoded)).fault = false ∧
    (after (exec .gvdecv encoded)).fault = false := ⟨fun i => exec_after i _, by decide +kernel⟩

/-- The first two clauses: a stopped GVC, and a command that faults. The third: `witness_LenAfterEachCommand`. -/
theorem witness_CommandFrames :
    exec .gvtbl stopped = .next stopped ∧ exec .gvenc mixedShort = .next (after (exec .gvenc mixedShort)) ∧
    stopped.fault = true ∧ mixedShort.fault = false ∧ (after (exec .gvenc mixedShort)).fault = true :=
  ⟨rfl, exec_after _ _, by decide +kernel⟩

/-- A state from which every command completes (`witness_LenAfterEachCommand`), and other values for its registers. -/
theorem witness_UnlistedRegistersAreNotRead :
    (∀ i, exec i encoded = .next (after (exec i encoded))) ∧ encoded.fault = false ∧ encoded.v ≠ #v[1, 2, 3, 4] ∧
    encoded.outPtr ≠ 7 ∧ encoded.len ≠ 9 ∧ encoded.fcmd ≠ 9 := ⟨fun i => exec_after i _, by decide +kernel⟩

/-- Offsets that are no writable slot, at the edges: STATUS, between two slots, and past the last slot. -/
theorem witness_HostWriteToEachSlot : ∀ off ∈ [0x08, 0x27, 0x29, 0x48, 0x68, 0x79, 0x80],
    off ≠ 0x00 ∧ off ≠ 0x28 ∧ off ≠ 0x30 ∧ off ≠ 0x38 ∧ off ≠ 0x40 ∧ off ≠ 0x70 ∧ off ≠ 0x78 := by decide

theorem witness_HostReadOfEachSlot :
    (0x01 % 8 ≠ 0 ∨ 0x80 ≤ 0x01) ∧ (0x80 % 8 ≠ 0 ∨ 0x80 ≤ 0x80) ∧
    (waiting [.regRead 0x08]).script = .regRead 0x08 :: [] := by decide

/-- Reset with the register window at bus address 0x1000, and the given host actions waiting. -/
def onBus (acts : List Action) : State :=
  { State.reset with params := { Config.defaultParams with regBase := 0x1000 }, script := acts }

/-- The last byte of the window, and the bytes on either side of it. -/
theorem witness_BusAccessesReachTheWindow :
    (127 < 128 ∧ (onBus [.busWrite 0x107F 1]).script = .busWrite ((onBus []).params.regBase + 127) 1 :: [] ∧
      (onBus [.busRead 0x107F]).script = .busRead ((onBus []).params.regBase + 127) :: []) ∧
    ((0xFFF < (onBus []).params.regBase ∨ (onBus []).params.regBase + 128 ≤ 0xFFF) ∧
      (onBus [.busRead 0xFFF]).script = .busRead 0xFFF :: []) ∧
    (0x1080 < (onBus []).params.regBase ∨ (onBus []).params.regBase + 128 ≤ 0x1080) ∧
    (onBus [.busWrite 0x1080 1]).script = .busWrite 0x1080 1 :: [] := by decide

/-- A CMD write at REG_BASE runs its command (R39). -/
theorem test_bus_command : (after (step (onBus [.busWrite 0x1000 3]))).tableValid = true := by decide +kernel

/-- GVDECS right after reset is readable whatever the platform's bytes are. -/
theorem witness_UnwrittenBytesAreThePlatforms :
    State.reset.fault = false ∧ State.reset.mem = [] ∧
    allReadable State.reset State.reset.inPtr.toNat
      (blockLength (Config.unwrittenByte State.reset.inPtr.toNat)) ∧
    (∀ c ∈ [((4, 7) : Host.Cell)], c.1 ≠ 5) ∧ Memory.wf [(4, 7)] ∧ (4, 7) ∈ [((4, 7) : Host.Cell)] :=
  ⟨rfl, rfl, fun j hj => (by decide : ∀ j, j < 17 → readableAt State.reset (State.reset.inPtr.toNat + j) = true) j
    (by have := blockLength_le (Config.unwrittenByte State.reset.inPtr.toNat); omega), by decide⟩

/-- Both clauses: the same address, the last there is, and another one. -/
theorem witness_HostMemoryReadsWhatWasWritten :
    (Memory.wf (waiting []).mem ∧ 2 ^ 64 - 1 < 2 ^ (waiting []).params.aw ∧ 0 < 2 ^ (waiting []).params.aw) ∧
    (waiting [.memWrite (2 ^ 64 - 1) 5, .memRead (2 ^ 64 - 1)]).script =
      .memWrite (2 ^ 64 - 1) 5 :: .memRead (2 ^ 64 - 1) :: [] ∧
    (waiting [.memWrite (2 ^ 64 - 1) 5, .memRead 0]).script = .memWrite (2 ^ 64 - 1) 5 :: .memRead 0 :: [] := by
  decide

/-- The step stops. -/
def stops (o : Host.Outcome State Fault Refusal) : Bool :=
  match o with
  | .next _ => false
  | .fault _ => true
  | .refused _ => true

/-- The first address that does not exist stops the step, the last that exists does not. -/
theorem witness_StepsStopOnlyAtAbsentHostAddresses :
    stops (step (waiting [.memRead (2 ^ 64)])) = true ∧ stops (step (waiting [.memWrite (2 ^ 64) 1])) = true ∧
    stops (step (waiting [.memWrite (2 ^ 64 - 1) 1])) = false := by decide +kernel

theorem witness_AssembledCommandsDecode : (255 < 256) ∧ (255 ≤ 255) := by decide

/-- The invariant holds with the table built and a block's length in LEN; a step reads a register there. -/
def reading : State := { built State.reset with len := 17, script := [.regRead 0x68] }

theorem reading_invariant : GvcInvariant reading where
  memory := by decide
  pointers := by decide
  table := fun _ => rfl
  len := .inr (by decide)
  faultRecord := ⟨by decide, rfl, rfl⟩

theorem witness_StepKeepsTheInvariant :
    GvcInvariant reading ∧ step reading = .next { reading with script := [], observed := [17] } :=
  ⟨reading_invariant, rfl⟩

theorem witness_PlatformResetState :
    { stopped with script := [.reset, .regRead 0] }.script = .reset :: [.regRead 0] := rfl

theorem witness_TableStaysUntilReset :
    TableOk (built State.reset) ∧ (built State.reset).tableValid = true ∧
    step (built State.reset) = .next (built State.reset) ∧ ¬ resetNext (built State.reset) :=
  ⟨fun _ => rfl, rfl, rfl, fun h => nomatch h⟩

theorem witness_OnlyGvtblPublishesTheTable :
    ((waiting [.regWrite 0x00 3]).tableValid = false ∧ ¬ resetNext (waiting [.regWrite 0x00 3])) ∧
    step (waiting [.regWrite 0x00 3]) = .next (built State.reset) ∧ (built State.reset).tableValid = true :=
  ⟨⟨rfl, fun h => nomatch h⟩, rfl, rfl⟩

theorem witness_ParametersStayAndVAndInPtrChangeOnlyByHostWrites :
    (step (waiting [.regWrite 0x40 9]) = .next { State.reset with v := #v[0, 0, 0, 9] } ∧
      #v[0, 0, 0, 9] ≠ (waiting [.regWrite 0x40 9]).v ∧ ¬ resetNext (waiting [.regWrite 0x40 9])) ∧
    step (waiting [.regWrite 0x70 9]) = .next { State.reset with inPtr := 9 } ∧
    (9 : Data) ≠ (waiting [.regWrite 0x70 9]).inPtr ∧ ¬ resetNext (waiting [.regWrite 0x70 9]) :=
  ⟨⟨rfl, by decide, fun h => nomatch h⟩, rfl, by decide, fun h => nomatch h⟩

/-- A host write to OUT_PTR, and a CMD write that runs GVENC. -/
theorem witness_OutPtrChangesOnlyByGvencOrHostWrites :
    (step (waiting [.regWrite 0x78 9]) = .next { State.reset with outPtr := 9 } ∧
      (9 : Data) ≠ (waiting [.regWrite 0x78 9]).outPtr ∧ ¬ resetNext (waiting [.regWrite 0x78 9])) ∧
    (after (step (waiting [.regWrite 0x00 1]))).outPtr ≠ (waiting [.regWrite 0x00 1]).outPtr ∧
    ¬ resetNext (waiting [.regWrite 0x00 1]) :=
  ⟨⟨rfl, by decide, fun h => nomatch h⟩, by decide +kernel, fun h => nomatch h⟩

end Sys2Proof.Tests
end

namespace Sys2Proof.Machine

/-! ## Scope (00_scope.md): commands are total, and what only a host write or a reset changes -/

/-- An executed word, legal or not, writes neither the platform's data nor V, IN_PTR or the host's data (R28, R31,
R37). -/
theorem execute_frame {w : Word} {s t : State} (h : execute w s = .next t) :
    t.params = s.params ∧ t.regions = s.regions ∧ t.v = s.v ∧ t.inPtr = s.inPtr ∧
      t.script = s.script ∧ t.observed = s.observed := by
  rcases execute_cases h with ⟨-, rfl⟩ | ⟨-, ⟨i, -, rfl⟩ | ⟨e, -, rfl⟩⟩
  · simp
  · exact commandResult_frame i s
  · simp

/-- A host write keeps the platform's data, and changes V or IN_PTR only at their own slots (R39, R40). -/
theorem hostWrite_platform_v_inPtr {off : Nat} {d : Data} {s t : State} (h : hostWrite off d s = .next t) :
    t.params = s.params ∧ t.regions = s.regions ∧
      (t.v ≠ s.v → ∃ k : Fin 4, off = 0x28 + 8 * k.val) ∧ (t.inPtr ≠ s.inPtr → off = 0x70) := by
  rcases hostWrite_cases h with ⟨-, h⟩ | ⟨k, hr, rfl⟩ | ⟨hr, rfl⟩ | ⟨-, rfl⟩ | rfl
  · obtain ⟨hp, hg, hv, hi, -, -⟩ := execute_frame h
    simp [hp, hg, hv, hi]
  · exact ⟨rfl, rfl, fun _ => ⟨k, regOffset_of_regAt hr⟩, fun hi => absurd rfl hi⟩
  · exact ⟨rfl, rfl, fun hv => absurd rfl hv, fun _ => regOffset_of_regAt hr⟩
  · simp
  · simp

/-- An action keeps the platform's data, and but for a reset it changes V or IN_PTR only as a host write to their slots,
by offset or by bus address (R39, R40). -/
theorem performAction_platform_v_inPtr {act : Action} {s t : State} (h : performAction act s = .next t) :
    t.params = s.params ∧ t.regions = s.regions ∧ (act ≠ .reset →
      (t.v ≠ s.v → ∃ (k : Fin 4) (d : Data), registerWrite s.params act = some (0x28 + 8 * k.val, d)) ∧
      (t.inPtr ≠ s.inPtr → ∃ d : Data, registerWrite s.params act = some (0x70, d))) := by
  rcases performAction_cases h with ⟨off, d, hw, h⟩ | ⟨off, -, rfl⟩ | ⟨a, -, -, rfl⟩ | ⟨a, b, -, -, rfl⟩ |
    ⟨a, -, -, rfl⟩ | ⟨rfl, rfl⟩
  · obtain ⟨hp, hg, hv, hi⟩ := hostWrite_platform_v_inPtr h
    refine ⟨hp, hg, fun _ => ⟨fun hne => ?_, fun hne => ⟨d, hi hne ▸ hw⟩⟩⟩
    obtain ⟨k, rfl⟩ := hv hne
    exact ⟨k, d, hw⟩
  all_goals simp

/-- Settles O43: the step takes the first waiting action, and `performAction_platform_v_inPtr` says what that can
change. -/
theorem parametersStayAndVAndInPtrChangeOnlyByHostWrites :
    Obligations.ParametersStayAndVAndInPtrChangeOnlyByHostWrites := by
  intro s t h
  cases hs : s.script with
  | nil =>
    cases (step_ended hs).symm.trans h
    simp
  | cons act rest =>
    obtain ⟨hp, hg, hslot⟩ := performAction_platform_v_inPtr ((step_action hs).symm.trans h)
    refine ⟨hp, hg, fun hnr => ?_⟩
    have hact : act ≠ .reset := fun ha => hnr ⟨rest, ha ▸ hs⟩
    obtain ⟨hv, hi⟩ := hslot hact
    exact ⟨fun hne => (hv hne).imp fun k => .imp fun d hw => ⟨act, rest, hs, hw⟩,
      fun hne => (hi hne).imp fun d hw => ⟨act, rest, hs, hw⟩⟩

/-- Settles O29: every command is its result behind the check of STATUS.FAULT, and either side of that check is a next
state. -/
theorem everyCommandAnswersANextState : Obligations.EveryCommandAnswersANextState := by
  intro i s
  cases hf : s.fault with
  | false => exact ⟨commandResult i s, exec_running i hf⟩
  | true => exact ⟨s, by rw [exec_eq, unlessFaulted_stopped _ hf]⟩

end Sys2Proof.Machine

namespace Sys2Proof.Machine

/-! ## What every command does: one fault, or its writes (R37, R152) -/

/-- The fault that a command raises on a GVC that is not stopped, with the address for FADDR (R101, R111, R126, R141). -/
def commandFault (i : Instr) (s : State) : Option (FaultCode × Nat) :=
  match i with
  | .gvenc => (firstInaccessible (writableAt s) s.outPtr.toNat (quadBlockLength s.v)).map (.writeFault, ·)
  | .gvdecs =>
    (firstInaccessible (readableAt s) s.inPtr.toNat (blockLength (Memory.read s.mem s.inPtr.toNat))).map
      (.readFault, ·)
  | .gvtbl => none
  | .gvtbrd _ => if s.tableValid then none else some (.tableNotBuilt, 0)
  | .gvdecv =>
    if s.params.hasSimd = false then some (.illegalCmd, 0)
    else if s.tableValid = false then some (.tableNotBuilt, 0)
    else (firstInaccessible (readableAt s) s.inPtr.toNat 17).map (.readFault, ·)

/-- What a command leaves where it raises no fault: its writes of R37's table. -/
def completedState (i : Instr) (s : State) : State :=
  match i with
  | .gvenc =>
    { s with
      mem := Memory.writeBytes s.mem s.outPtr.toNat (blockOf s.v)
      outPtr := truncAW s.params (s.outPtr.toNat + quadBlockLength s.v)
      len := BitVec.ofNat 32 (quadBlockLength s.v) }
  | .gvdecs =>
    { s with
      r := Vector.ofFn (scalarValue s.mem s.inPtr.toNat (Memory.read s.mem s.inPtr.toNat))
      len := BitVec.ofNat 32 (blockLength (Memory.read s.mem s.inPtr.toNat)) }
  | .gvtbl => buildTable s
  | .gvtbrd sel => { s with r := lanes (s.tbl[sel.toNat]'(sel.isLt)) }
  | .gvdecv => shuffleDecode s

/-- A command's result is its fault's entry, or its writes. -/
theorem commandResult_eq (i : Instr) (s : State) :
    commandResult i s = (commandFault i s).elim (completedState i s)
      fun f => raiseFault f.1 f.2 (encode i) s := by
  cases i with
  | gvenc =>
    rcases encodeAndAppend_cases s with ⟨a, hok, h⟩ | ⟨hok, h⟩ <;>
      simp [commandResult, commandFault, completedState, hok, h]
  | gvdecs =>
    rcases decodeScalar_cases s with ⟨a, hok, h⟩ | ⟨hok, h⟩ <;>
      simp [commandResult, commandFault, completedState, hok, h]
  | gvtbl => rfl
  | gvtbrd sel =>
    rcases readTableEntry_cases sel s with ⟨htv, h⟩ | ⟨htv, h⟩ <;>
      simp [commandResult, commandFault, completedState, htv, h]
  | gvdecv =>
    rcases decodeSimd_cases s with ⟨hsimd, h⟩ | ⟨hsimd, htv, h⟩ | ⟨hsimd, htv, a, hok, h⟩ | ⟨hsimd, htv, hok, h⟩ <;>
      simp [commandResult, commandFault, completedState, *]

/-- The two cases of a command's result. -/
theorem commandResult_cases (i : Instr) (s : State) :
    (∃ code a, commandFault i s = some (code, a) ∧ commandResult i s = raiseFault code a (encode i) s) ∨
    (commandFault i s = none ∧ commandResult i s = completedState i s) := by
  rw [commandResult_eq]
  rcases commandFault i s with _ | ⟨code, a⟩
  · exact .inr ⟨rfl, rfl⟩
  · exact .inl ⟨code, a, rfl, rfl⟩

@[simp] theorem completedState_fault (i : Instr) (s : State) : (completedState i s).fault = s.fault := by
  cases i <;> rfl

/-- A command that sets FAULT did nothing but enter its fault (R152). -/
theorem commandResult_of_faulted {i : Instr} {s : State} (hs : s.fault = false)
    (h : (commandResult i s).fault = true) :
    ∃ code a, commandFault i s = some (code, a) ∧ commandResult i s = raiseFault code a (encode i) s := by
  rcases commandResult_cases i s with hf | ⟨-, hc⟩
  · exact hf
  · simp [hc, hs] at h

/-- A command that leaves FAULT = 0 made its writes. -/
theorem commandResult_of_completed {i : Instr} {s : State} (h : (commandResult i s).fault = false) :
    commandResult i s = completedState i s := by
  rcases commandResult_cases i s with ⟨code, a, -, hf⟩ | ⟨-, hc⟩
  · simp [hf] at h
  · exact hc

/-- Only GVTBL writes TV and TBL (R37). -/
theorem commandResult_table {i : Instr} (hi : i ≠ .gvtbl) (s : State) :
    (commandResult i s).tableValid = s.tableValid ∧ (commandResult i s).tbl = s.tbl := by
  rcases commandResult_cases i s with ⟨code, a, -, h⟩ | ⟨-, h⟩ <;> rw [h]
  · exact ⟨rfl, rfl⟩
  · cases i with
    | gvtbl => exact absurd rfl hi
    | gvenc | gvdecs | gvtbrd | gvdecv => exact ⟨rfl, rfl⟩

/-- Only GVENC writes OUT_PTR (R37). -/
theorem commandResult_outPtr {i : Instr} (hi : i ≠ .gvenc) (s : State) :
    (commandResult i s).outPtr = s.outPtr := by
  rcases commandResult_cases i s with ⟨code, a, -, h⟩ | ⟨-, h⟩ <;> rw [h]
  · rfl
  · cases i with
    | gvenc => exact absurd rfl hi
    | gvdecs | gvtbl | gvtbrd | gvdecv => rfl

/-- The fault that a command raises has a cause, and its record is one that FaultRecordOk admits (R150, R151). -/
theorem commandFault_record {i : Instr} {s : State} {code : FaultCode} {a : Nat}
    (h : commandFault i s = some (code, a)) :
    code ≠ .noFault ∧ recordMatches (raiseFault code a (encode i) s) code := by
  cases i with
  | gvenc =>
    simp only [commandFault, Option.map_eq_some_iff, Prod.mk.injEq] at h
    obtain ⟨_, -, rfl, rfl⟩ := h
    exact ⟨by decide, rfl⟩
  | gvdecs =>
    simp only [commandFault, Option.map_eq_some_iff, Prod.mk.injEq] at h
    obtain ⟨_, -, rfl, rfl⟩ := h
    exact ⟨by decide, .inl rfl⟩
  | gvtbl => cases h
  | gvtbrd sel =>
    simp only [commandFault] at h
    split at h
    · cases h
    · obtain ⟨rfl, rfl⟩ : .tableNotBuilt = code ∧ 0 = a := by simpa using h
      exact ⟨by decide, truncAW_zero _, .inr ⟨sel, rfl⟩⟩
  | gvdecv =>
    simp only [commandFault] at h
    split_ifs at h with hsimd htv
    · obtain ⟨rfl, rfl⟩ : .illegalCmd = code ∧ 0 = a := by simpa using h
      refine ⟨by decide, truncAW_zero _, fun i => ?_⟩
      simp only [raiseFault_params, raiseFault_fcmd, hsimd]
      exact fun hd => nomatch (decode_word_gvdecv_absent).symm.trans hd
    · obtain ⟨rfl, rfl⟩ : .tableNotBuilt = code ∧ 0 = a := by simpa using h
      exact ⟨by decide, truncAW_zero _, .inl rfl⟩
    · simp only [Option.map_eq_some_iff, Prod.mk.injEq] at h
      obtain ⟨_, -, rfl, rfl⟩ := h
      exact ⟨by decide, .inr rfl⟩

/-! ## The machine's invariant (R26, R30-R32, R36, R50, R150) -/

/-- A block's length fits LEN's clause of the invariant (R30). -/
theorem lenOk_of_eq_blockLength {s : State} {n : Nat} (hlen : s.len.toNat = n) (h5 : 5 ≤ n) (h17 : n ≤ 17) :
    LenOk s := .inr ⟨hlen ▸ h5, hlen ▸ h17⟩

/-- The host's script and record are no part of the invariant. -/
theorem GvcInvariant.withHostData {s : State} (h : GvcInvariant s) (script : List Action) (observed : List Data) :
    GvcInvariant { s with script := script, observed := observed } :=
  ⟨h.memory, h.pointers, h.table, h.len, h.faultRecord⟩

/-- Storing a byte at an address that exists keeps the invariant (R50). -/
theorem GvcInvariant.withByte {s : State} (h : GvcInvariant s) {a : Nat} (b : Byte) (ha : a < 2 ^ s.params.aw) :
    GvcInvariant { s with mem := Memory.write s.mem a b } := by
  obtain ⟨hwf, hlt⟩ := h.memory
  refine ⟨⟨Memory.wf_write hwf a b, fun c hc => ?_⟩, h.pointers, h.table, h.len, h.faultRecord⟩
  rcases Memory.mem_write hc with hc | rfl
  · exact hlt c hc
  · exact ha

/-- Fault entry keeps the invariant where the record it makes is one that FaultRecordOk admits (R152). -/
theorem GvcInvariant.afterFault {s : State} (h : GvcInvariant s) {code : FaultCode} {a : Nat} {w : Word}
    (hcode : code ≠ .noFault) (hrec : recordMatches (raiseFault code a w s) code) :
    GvcInvariant (raiseFault code a w s) := by
  obtain ⟨-, hin, hout⟩ := h.pointers
  exact ⟨h.memory, ⟨truncAW_lt _ _, hin, hout⟩, h.table, h.len, ⟨fun _ => hcode, fun _ => rfl⟩, hrec⟩

/-- GVENC's completion keeps the memory canonical and below 2^AW, all its target bytes being writable (R50, R101). -/
theorem memoryOk_completedState_gvenc {s : State} (h : MemoryOk s) (hf : commandFault .gvenc s = none) :
    MemoryOk (completedState .gvenc s) := by
  obtain ⟨hwf, hlt⟩ := h
  refine ⟨Memory.wf_writeBytes hwf _ _, fun c hc => ?_⟩
  rcases Memory.mem_writeBytes hc with hc | ⟨hlo, hhi⟩
  · exact hlt c hc
  · have hok := firstInaccessible_eq_none.mp (Option.map_eq_none_iff.mp hf)
    rw [blockOf_length] at hhi
    have := writableAt_lt (hok (c.1 - s.outPtr.toNat) (by omega))
    rwa [Nat.add_sub_cancel' hlo] at this

/-- A command's completion keeps the invariant. -/
theorem GvcInvariant.afterCompletion {s : State} (h : GvcInvariant s) {i : Instr} (hf : commandFault i s = none) :
    GvcInvariant (completedState i s) := by
  obtain ⟨hfaddr, hin, hout⟩ := h.pointers
  cases i with
  | gvenc =>
    exact ⟨memoryOk_completedState_gvenc h.memory hf, ⟨hfaddr, hin, truncAW_lt _ _⟩, h.table,
      lenOk_of_eq_blockLength (toNat_ofNat_quadBlockLength _) (quadBlockLength_ge _) (quadBlockLength_le _),
      h.faultRecord⟩
  | gvtbl => exact ⟨h.memory, h.pointers, fun _ => rfl, h.len, h.faultRecord⟩
  | gvtbrd sel => exact ⟨h.memory, h.pointers, h.table, h.len, h.faultRecord⟩
  | gvdecs | gvdecv =>
    exact ⟨h.memory, h.pointers, h.table,
      lenOk_of_eq_blockLength (toNat_ofNat_blockLength _) (blockLength_ge _) (blockLength_le _), h.faultRecord⟩

/-- Executing a word, legal or not, keeps the invariant (R154). -/
theorem GvcInvariant.afterExecute {w : Word} {s t : State} (h : GvcInvariant s) (he : execute w s = .next t) :
    GvcInvariant t := by
  rcases execute_cases he with ⟨-, rfl⟩ | ⟨-, ⟨i, -, rfl⟩ | ⟨e, hd, rfl⟩⟩
  · exact h
  · rcases commandResult_cases i s with ⟨code, a, hf, hr⟩ | ⟨hf, hr⟩ <;> rw [hr]
    · obtain ⟨hcode, hrec⟩ := commandFault_record hf
      exact h.afterFault hcode hrec
    · exact h.afterCompletion hf
  · exact h.afterFault (by decide) ⟨truncAW_zero _, fun i hi => nomatch hd.symm.trans hi⟩

/-- A host write to any offset keeps the invariant (R40). -/
theorem GvcInvariant.afterHostWrite {off : Nat} {d : Data} {s t : State} (h : GvcInvariant s)
    (hw : hostWrite off d s = .next t) : GvcInvariant t := by
  obtain ⟨hfaddr, hin, hout⟩ := h.pointers
  rcases hostWrite_cases hw with ⟨-, he⟩ | ⟨k, -, rfl⟩ | ⟨-, rfl⟩ | ⟨-, rfl⟩ | rfl
  · exact h.afterExecute he
  · exact ⟨h.memory, h.pointers, h.table, h.len, h.faultRecord⟩
  · exact ⟨h.memory, ⟨hfaddr, truncAW_lt _ _, hout⟩, h.table, h.len, h.faultRecord⟩
  · exact ⟨h.memory, ⟨hfaddr, hin, truncAW_lt _ _⟩, h.table, h.len, h.faultRecord⟩
  · exact h

/-- The platform's reset, in any state with its memory in order, makes the invariant hold (R170). -/
theorem invariant_platformReset {s : State} (h : MemoryOk s) : GvcInvariant (platformReset s) := by
  have hpos : 0 < 2 ^ s.params.aw := Nat.two_pow_pos _
  exact ⟨h, ⟨hpos, hpos, hpos⟩, (nomatch ·), .inl rfl,
    ⟨(nomatch ·), fun hc => absurd rfl hc⟩, rfl, rfl⟩

/-- Every action keeps the invariant. -/
theorem GvcInvariant.afterAction {act : Action} {s t : State} (h : GvcInvariant s)
    (ha : performAction act s = .next t) : GvcInvariant t := by
  rcases performAction_cases ha with ⟨off, d, -, hw⟩ | ⟨off, -, rfl⟩ | ⟨a, -, -, rfl⟩ | ⟨a, b, -, hlt, rfl⟩ |
    ⟨a, -, -, rfl⟩ | ⟨-, rfl⟩
  · exact h.afterHostWrite hw
  · exact h.withHostData _ _
  · exact h
  · exact h.withByte b hlt
  · exact h.withHostData _ _
  · exact invariant_platformReset h.memory

/-- Settles O38: a step ends the run or performs the first waiting action, and `GvcInvariant.afterAction` goes through
the actions. -/
theorem stepKeepsTheInvariant : Obligations.StepKeepsTheInvariant := by
  intro s t hs h
  cases hscript : s.script with
  | nil => exact Host.Outcome.next.inj ((step_ended hscript).symm.trans h) ▸ hs
  | cons act rest => exact (hs.withHostData rest _).afterAction ((step_action hscript).symm.trans h)

end Sys2Proof.Machine

namespace Sys2Proof.Machine

/-! ## Steps, the table and OUT_PTR (R24, R32, R34, R36) -/

/-- A host write executes a word in CMD's slot, or it keeps TV and TBL, and keeps OUT_PTR but in its slot (R39, R40). -/
theorem hostWrite_cmd_or_keeps {off : Nat} {d : Data} {s t : State} (h : hostWrite off d s = .next t) :
    (off = 0x00 ∧ execute (d.setWidth 32) s = .next t) ∨
    (t.tableValid = s.tableValid ∧ t.tbl = s.tbl ∧ (t.outPtr ≠ s.outPtr → off = 0x78)) := by
  rcases hostWrite_cases h with ⟨hr, he⟩ | ⟨k, -, rfl⟩ | ⟨-, rfl⟩ | ⟨hr, rfl⟩ | rfl
  · exact .inl ⟨regOffset_of_regAt hr, he⟩
  · simp
  · simp
  · exact .inr ⟨rfl, rfl, fun _ => regOffset_of_regAt hr⟩
  · simp

/-- A step that is no reset executes the word of a CMD write, or it keeps TV and TBL, and keeps OUT_PTR but for a host
write to its slot. -/
theorem step_cmdWrite_or_keeps {s t : State} (h : step s = .next t) (hnr : ¬ resetNext s) :
    (∃ d rest, registerWriteNext s 0x00 d ∧ execute (d.setWidth 32) { s with script := rest } = .next t) ∨
    (t.tableValid = s.tableValid ∧ t.tbl = s.tbl ∧
      (t.outPtr ≠ s.outPtr → ∃ d, registerWriteNext s 0x78 d)) := by
  cases hs : s.script with
  | nil =>
    cases (step_ended hs).symm.trans h
    simp
  | cons act rest =>
    rcases performAction_cases ((step_action hs).symm.trans h) with
      ⟨off, d, hreg, hw⟩ | ⟨off, -, rfl⟩ | ⟨a, -, -, rfl⟩ | ⟨a, b, -, -, rfl⟩ | ⟨a, -, -, rfl⟩ | ⟨rfl, -⟩
    · have hnext : registerWriteNext s off d := ⟨act, rest, hs, hreg⟩
      rcases hostWrite_cmd_or_keeps hw with ⟨rfl, he⟩ | ⟨htv, htbl, hout⟩
      · exact .inl ⟨d, rest, hnext, he⟩
      · exact .inr ⟨htv, htbl, fun hne => ⟨d, hout hne ▸ hnext⟩⟩
    · simp
    · simp
    · simp
    · simp
    · exact absurd ⟨rest, hs⟩ hnr

/-- An executed word keeps TV and TBL, or it is GVTBL's on a GVC that is not stopped (R34, R37). -/
theorem execute_table {w : Word} {s t : State} (h : execute w s = .next t) :
    (t.tableValid = s.tableValid ∧ t.tbl = s.tbl) ∨
    (s.fault = false ∧ decode s.params.hasSimd w = .ok .gvtbl ∧ t = buildTable s) := by
  rcases execute_cases h with ⟨-, rfl⟩ | ⟨hf, ⟨i, hd, rfl⟩ | ⟨e, -, rfl⟩⟩
  · exact .inl ⟨rfl, rfl⟩
  · by_cases hi : i = .gvtbl
    · exact .inr ⟨hf, hi ▸ hd, by rw [hi]; rfl⟩
    · exact .inl (commandResult_table hi s)
  · exact .inl ⟨rfl, rfl⟩

/-- An executed word keeps OUT_PTR, or it is GVENC's on a GVC that is not stopped (R32, R37). -/
theorem execute_outPtr {w : Word} {s t : State} (h : execute w s = .next t) :
    t.outPtr = s.outPtr ∨ (s.fault = false ∧ decode s.params.hasSimd w = .ok .gvenc) := by
  rcases execute_cases h with ⟨-, rfl⟩ | ⟨hf, ⟨i, hd, rfl⟩ | ⟨e, -, rfl⟩⟩
  · exact .inl rfl
  · by_cases hi : i = .gvenc
    · exact .inr ⟨hf, hi ▸ hd⟩
    · exact .inl (commandResult_outPtr hi s)
  · exact .inl rfl

/-- Settles O41: only GVTBL touches the table, and it builds the one that TV = 1 says is there. -/
theorem tableStaysUntilReset : Obligations.TableStaysUntilReset := by
  intro s t hok htv h hnr
  rcases step_cmdWrite_or_keeps h hnr with ⟨d, rest, -, he⟩ | ⟨htv', htbl, -⟩
  · rcases execute_table he with ⟨htv', htbl⟩ | ⟨-, -, rfl⟩
    · exact ⟨htv'.trans htv, htbl⟩
    · exact ⟨rfl, (hok htv).symm⟩
  · exact ⟨htv'.trans htv, htbl⟩

/-- Settles O42: a step that changes TV or TBL executes a word, and `execute_table` says that it is GVTBL's. -/
theorem onlyGvtblPublishesTheTable : Obligations.OnlyGvtblPublishesTheTable := by
  intro s t htv h hnr hchange
  have hkeep : ¬ (t.tableValid = s.tableValid ∧ t.tbl = s.tbl) := by
    rintro ⟨htv', htbl⟩
    simp [htv', htv, htbl] at hchange
  rcases step_cmdWrite_or_keeps h hnr with ⟨d, rest, hnext, he⟩ | ⟨htv', htbl, -⟩
  · rcases execute_table he with hk | ⟨hf, hd, -⟩
    · exact absurd hk hkeep
    · exact ⟨d, hnext, hf, hd⟩
  · exact absurd ⟨htv', htbl⟩ hkeep

/-- Settles O48: a step that changes OUT_PTR writes its slot or executes a word, and `execute_outPtr` says that the word
is GVENC's. -/
theorem outPtrChangesOnlyByGvencOrHostWrites : Obligations.OutPtrChangesOnlyByGvencOrHostWrites := by
  intro s t h hnr hne
  rcases step_cmdWrite_or_keeps h hnr with ⟨d, rest, hnext, he⟩ | ⟨-, -, hout⟩
  · rcases execute_outPtr he with hk | ⟨hf, hd⟩
    · exact absurd hk hne
    · exact ⟨d, .inr ⟨hnext, hf, hd⟩⟩
  · exact (hout hne).imp fun d hw => .inl hw

/-! ## LEN and the frames of the commands (R30, R37, R160) -/

/-- A command on a GVC that is not stopped ends in its result. -/
theorem eq_commandResult_of_exec {i : Instr} {s t : State} (hs : s.fault = false) (h : exec i s = .next t) :
    t = commandResult i s := Host.Outcome.next.inj (h.symm.trans (exec_running i hs))

/-- LEN after a completed decoder is its block's length, which is in 5..17 (R30). -/
theorem len_of_decoded {len : Word} {sel : Byte} (h : len = BitVec.ofNat 32 (blockLength sel)) :
    len.toNat = blockLength sel ∧ 5 ≤ len.toNat ∧ len.toNat ≤ 17 := by
  rw [h, toNat_ofNat_blockLength]
  exact ⟨rfl, blockLength_ge sel, blockLength_le sel⟩

/-- Settles O26: LEN of each command's completed state is a block's length, or the LEN before. -/
theorem lenAfterEachCommand : Obligations.LenAfterEachCommand := by
  refine ⟨fun i s t hs h ht => ?_, fun s d => rfl⟩
  obtain rfl := eq_commandResult_of_exec hs h
  rw [commandResult_of_completed ht]
  cases i with
  | gvenc =>
    simp only [completedState, toNat_ofNat_quadBlockLength]
    exact ⟨trivial, quadBlockLength_ge s.v, quadBlockLength_le s.v⟩
  | gvdecs => exact len_of_decoded rfl
  | gvtbl => rfl
  | gvtbrd sel => rfl
  | gvdecv => exact len_of_decoded rfl

/-- Settles O27: a stopped GVC ignores the command, and `commandResult_of_faulted` and `commandResult_of_completed` give
the two other outcomes in full. -/
theorem commandFrames : Obligations.CommandFrames := by
  intro i s t h
  refine ⟨fun hs => ?_, fun hs ht => ?_, fun hs ht => ?_⟩
  · rw [exec_eq, unlessFaulted_stopped _ hs] at h
    exact (Host.Outcome.next.inj h).symm
  · obtain rfl := eq_commandResult_of_exec hs h
    obtain ⟨code, a, -, hr⟩ := commandResult_of_faulted hs ht
    rw [hr]
    exact ⟨rfl, fun _ => rfl⟩
  · obtain rfl := eq_commandResult_of_exec hs h
    rw [commandResult_of_completed ht]
    cases i with
    | gvenc => exact ⟨rfl, fun a ha => Memory.read_writeBytes_outside _ _ _ (by rwa [blockOf_length])⟩
    | gvdecs | gvtbl | gvtbrd | gvdecv => exact ⟨rfl, fun _ => rfl⟩

/-- A command run in u, where it raises the same fault as in s or none in both, ends in `t'`, where `t'` is u if the
command is ignored, the same fault's entry from u if it faults, and its writes to u if it completes. -/
theorem exec_of_sameFault {i : Instr} {s t u t' : State} (h : exec i s = .next t) (hf : u.fault = s.fault)
    (hsame : commandFault i u = commandFault i s) (hstop : s.fault = true → t = s → t' = u)
    (hfault : ∀ code a, t = raiseFault code a (encode i) s → t' = raiseFault code a (encode i) u)
    (hdone : s.fault = false → t = completedState i s → t' = completedState i u) :
    exec i u = .next t' := by
  rcases exec_eq_next h with ⟨hs, ht⟩ | ⟨hs, ht⟩
  · rw [exec_eq, unlessFaulted_stopped _ (hf.trans hs), hstop hs ht]
  · rw [exec_running i (hf.trans hs), commandResult_eq, hsame]
    rw [commandResult_eq] at ht
    cases hc : commandFault i s with
    | none => exact congrArg _ (hdone hs (by simpa [hc] using ht)).symm
    | some f => exact congrArg _ (hfault f.1 f.2 (by simpa [hc] using ht)).symm

/-- Settles O28: the registers replaced are none that a command's fault or its writes are made of. -/
theorem unlistedRegistersAreNotRead : Obligations.UnlistedRegistersAreNotRead := by
  intro s t v r len inPtr outPtr tbl tv
  refine ⟨fun h => ?gvenc, fun h => ?gvdecs, fun h => ?gvtbl, fun sel h => ?gvtbrd, fun h => ?gvdecv,
    fun i fcode faddr fcmd hs h => ?faultRecord⟩
  case faultRecord =>
    refine exec_of_sameFault h rfl (by cases i <;> rfl) (fun hs' _ => ?stopped) (fun code a ht => ?faulted)
      (fun _ ht => ?completed)
    case stopped => exact absurd (hs.symm.trans hs') (by decide)
    case faulted => subst ht; rfl
    case completed => subst ht; cases i <;> simp [completedState, shuffleDecode, buildTable, hs]
  case gvenc | gvdecs | gvtbl | gvtbrd | gvdecv =>
    refine exec_of_sameFault h rfl rfl (fun hs ht => ?stopped) (fun code a ht => ?faulted) (fun hs ht => ?completed)
    case stopped => subst ht; simp [hs]
    case faulted => subst ht; rfl
    case completed => subst ht; simp [completedState, shuffleDecode, buildTable, hs]

end Sys2Proof.Machine

namespace Sys2Proof.Machine

/-! ## The register window (R39-R41) -/

/-- A slot's offset is a multiple of 8 inside the window (R39). -/
theorem regOffset_slot (reg : Reg) : regOffset reg % 8 = 0 ∧ regOffset reg < 0x80 := by
  cases reg with
  | v k | r k => have := k.isLt; simp only [regOffset]; omega
  | _ => decide

/-- A host read at a register's slot gives the register (R41). -/
@[simp] theorem hostRead_regOffset (s : State) (reg : Reg) : hostRead s (regOffset reg) = readReg s reg := by
  simp [hostRead]

/-- A host read at an offset that is no slot gives 0 (R41). -/
theorem hostRead_of_no_slot (s : State) {off : Nat} (h : regAt off = none) : hostRead s off = 0 := by
  simp [hostRead, h]

/-- A host write at the slot of a register other than CMD writes the register (R40). -/
theorem hostWrite_regOffset (s : State) (d : Data) {reg : Reg} (h : reg ≠ .cmd) :
    hostWrite (regOffset reg) d s = .next (writeReg s d reg) := by
  unfold hostWrite
  rw [regAt_regOffset]
  cases reg with
  | cmd => exact absurd rfl h
  | _ => rfl

/-- A host write at an offset that is no slot changes nothing (R40). -/
theorem hostWrite_of_no_slot (s : State) (d : Data) {off : Nat} (h : regAt off = none) :
    hostWrite off d s = .next s := by
  simp [hostWrite, h]

/-- Settles O30: the writable slots by `hostWrite_regOffset`, and every other offset is a read-only register's or no
slot. -/
theorem hostWriteToEachSlot : Obligations.HostWriteToEachSlot := by
  intro s d
  refine ⟨rfl, fun k => hostWrite_regOffset s d (reg := .v k) (by simp), rfl, rfl,
    fun off hcmd hv0 hv1 hv2 hv3 hin hout => ?_⟩
  cases hr : regAt off with
  | none => exact hostWrite_of_no_slot s d hr
  | some reg =>
    obtain rfl := regOffset_of_regAt hr
    cases reg with
    | cmd => exact absurd rfl hcmd
    | inPtr => exact absurd rfl hin
    | outPtr => exact absurd rfl hout
    | v k => simp only [regOffset] at hv0 hv1 hv2 hv3; omega
    | status | caps | faddr | fcmd | r | len => exact hostWrite_regOffset s d (by simp)

/-- Settles O31: every slot by `hostRead_regOffset`, and an offset that is not 8 aligned or not in the window is no
slot. -/
theorem hostReadOfEachSlot : Obligations.HostReadOfEachSlot := by
  intro s
  refine ⟨rfl, rfl, rfl, rfl, rfl, fun k => hostRead_regOffset s (.v k), fun k => hostRead_regOffset s (.r k), rfl, rfl,
    rfl, fun off hoff => hostRead_of_no_slot s ?_, fun off rest hs => step_action hs⟩
  cases hr : regAt off with
  | none => rfl
  | some reg =>
    obtain rfl := regOffset_of_regAt hr
    have := regOffset_slot reg
    omega

/-! ## The fields of STATUS and CAPS (R24, R25, R150) -/

/-- A concatenation as a number: its parts with their weights. -/
theorem toNat_append_eq_add {m n : Nat} (x : BitVec m) (y : BitVec n) :
    (x ++ y).toNat = x.toNat * 2 ^ n + y.toNat := by
  rw [BitVec.toNat_append, ← Nat.shiftLeft_add_eq_or_of_lt y.isLt, Nat.shiftLeft_eq]

/-- A field of a word, by division. -/
theorem extractLsb'_eq_of_toNat {w k n : Nat} {x : BitVec w} {y : BitVec n}
    (h : x.toNat / 2 ^ k % 2 ^ n = y.toNat) : x.extractLsb' k n = y := by
  apply BitVec.eq_of_toNat_eq
  rw [BitVec.extractLsb'_toNat, Nat.shiftRight_eq_div_pow, h]

/-- A field of a word that reads 0, by division. -/
theorem extractLsb'_eq_zero_of_toNat {w k n : Nat} {x : BitVec w} (h : x.toNat / 2 ^ k % 2 ^ n = 0) :
    x.extractLsb' k n = 0 := extractLsb'_eq_of_toNat (by simpa using h)

/-- A bit of a word, by division. -/
theorem getElem_eq_of_toNat {w k : Nat} {x : BitVec w} {b : Bool} (hk : k < w)
    (h : x.toNat / 2 ^ k % 2 = b.toNat) : x[k] = b := by
  rw [BitVec.getElem_eq_testBit_toNat, Nat.testBit_eq_decide_div_mod_eq, h]
  cases b <;> rfl

/-- What the host reads from STATUS, as a number (R24). -/
theorem hostRead_status_toNat (s : State) :
    (hostRead s 0x08).toNat = (faultNumber s.fcode).toNat * 16 + s.tableValid.toNat * 2 + s.fault.toNat := by
  have hcode := (faultNumber s.fcode).isLt
  have htv := s.tableValid.toNat_le
  have hf := s.fault.toNat_le
  show ((0#24 ++ faultNumber s.fcode ++ 0#2 ++ BitVec.ofBool s.tableValid ++ BitVec.ofBool s.fault :
    BitVec (24 + 4 + 2 + 1 + 1)).setWidth 64).toNat = _
  simp only [BitVec.toNat_setWidth, toNat_append_eq_add, BitVec.toNat_ofBool, BitVec.toNat_ofNat]
  omega

/-- What the host reads from CAPS, as a number (R25). -/
theorem hostRead_caps_toNat (s : State) :
    (hostRead s 0x10).toNat = s.params.zeroFill.toNat * 65536 + s.params.aw * 256 + s.params.hasSimd.toNat := by
  have hzf := s.params.zeroFill.isLt
  have haw := Params.aw_cases s.params
  have hsimd := s.params.hasSimd.toNat_le
  show ((0#8 ++ s.params.zeroFill ++ BitVec.ofNat 8 s.params.aw ++ 0#7 ++ BitVec.ofBool s.params.hasSimd :
    BitVec (8 + 8 + 8 + 7 + 1)).setWidth 64).toNat = _
  simp only [BitVec.toNat_setWidth, toNat_append_eq_add, BitVec.toNat_ofBool, BitVec.toNat_ofNat]
  omega

/-- Settles O32: each field by division of `hostRead_status_toNat`, and R150's numbers by cause. -/
theorem statusFields : Obligations.StatusFields := by
  intro s
  have hword := hostRead_status_toNat s
  have hcode := (faultNumber s.fcode).isLt
  have htv := s.tableValid.toNat_le
  have hf := s.fault.toNat_le
  refine ⟨getElem_eq_of_toNat _ ?_, getElem_eq_of_toNat _ ?_, extractLsb'_eq_zero_of_toNat ?_,
    (extractLsb'_eq_of_toNat (y := faultNumber s.fcode) ?_).trans ?numbers, extractLsb'_eq_zero_of_toNat ?_⟩
  case numbers => cases s.fcode <;> rfl
  all_goals
    rw [hword]
    omega

/-- Settles O33: each field by division of `hostRead_caps_toNat`, and CAPS is no writable register. -/
theorem capsFields : Obligations.CapsFields := by
  intro s
  have hword := hostRead_caps_toNat s
  have hzf := s.params.zeroFill.isLt
  have haw := Params.aw_cases s.params
  have hsimd := s.params.hasSimd.toNat_le
  refine ⟨getElem_eq_of_toNat _ ?_, extractLsb'_eq_zero_of_toNat ?_, ?aw, extractLsb'_eq_of_toNat ?_,
    extractLsb'_eq_zero_of_toNat ?_, fun d => hostWrite_regOffset s d (reg := .caps) (by simp)⟩
  case aw =>
    rw [BitVec.extractLsb'_toNat, Nat.shiftRight_eq_div_pow, hword]
    omega
  all_goals
    rw [hword]
    omega

/-! ## The host's memory, the bus and CMD writes (R23, R39, R42, R63) -/

/-- A host store to an address that exists succeeds (R50, R63). -/
theorem performAction_memWrite {s : State} {a : Nat} (b : Byte) (h : a < 2 ^ s.params.aw) :
    performAction (.memWrite a b) s = .next { s with mem := Memory.write s.mem a b } := if_pos h

/-- A host load from an address that exists records the byte (R42, R50). -/
theorem performAction_memRead {s : State} {a : Nat} (h : a < 2 ^ s.params.aw) :
    performAction (.memRead a) s = .next (recordValue ((Memory.read s.mem a).setWidth 64) s) := if_pos h

/-- What a read finds after a write, at any address. -/
theorem read_write_eq_ite (m : Memory) (a c : Nat) (b : Byte) :
    Memory.read (Memory.write m a b) c = if c = a then b else Memory.read m c := by
  split
  · next h => exact h ▸ Memory.read_write_same m a b
  · next h => exact Memory.read_write_other m b h

/-- Settles O34: the store succeeds, and the read finds the byte stored or the one that was there. -/
theorem hostMemoryReadsWhatWasWritten : Obligations.HostMemoryReadsWhatWasWritten := by
  intro s a c b rest _ ha hc hs
  refine ⟨{ s with script := .memRead c :: rest, mem := Memory.write s.mem a b }, _,
    (step_action hs).trans (performAction_memWrite b ha), (step_action rfl).trans (performAction_memRead hc), rfl, ?_⟩
  simp only [recordValue, read_write_eq_ite]

/-- A bus address in the register window has the offset it is made of (R39). -/
theorem windowOffset_inside (p : Params) {off : Nat} (h : off < windowBytes) :
    windowOffset p (p.regBase + off) = some off := windowOffset_eq_some.mpr ⟨rfl, h⟩

/-- A bus address outside the register window has no offset (R39). -/
theorem windowOffset_outside {p : Params} {a : Nat} (h : a < p.regBase ∨ p.regBase + windowBytes ≤ a) :
    windowOffset p a = none := if_neg (by omega)

/-- Settles O46: the window's addresses are REG_BASE plus the offsets below its size, `windowOffset_inside` and
`windowOffset_outside`. -/
theorem busAccessesReachTheWindow : Obligations.BusAccessesReachTheWindow := by
  refine ⟨fun s off d rest hoff => ⟨fun hs => ?write, fun hs => ?read⟩, fun s a rest ha hs => ?outside, fun p => rfl⟩
  case write => simp [step_action hs, performAction, busWrite, windowOffset_inside s.params hoff]
  case read =>
    simp only [step_action hs, performAction, busRead, windowOffset_inside s.params hoff]
    rfl
  case outside =>
    have hno := windowOffset_outside ha
    rcases hs with hs | ⟨d, hs⟩
    · simp [step_action hs, performAction, busRead, hno]
    · simp [step_action hs, performAction, busWrite, hno]

/-- A CMD write of a word that decodes runs its command (R40, R154). -/
theorem performAction_cmdWrite {s : State} {d : Data} {i : Instr}
    (hd : decode s.params.hasSimd (d.setWidth 32) = .ok i) : performAction (.regWrite 0x00 d) s = exec i s := by
  show execute (d.setWidth 32) s = _
  simp [execute, hd]

/-- Settles O5: a step takes the first action, `withFetchWord` puts a CMD write first, and the low 32 bits of its data
are the word. -/
theorem stepRunsTheDecodedCommand : Obligations.StepRunsTheDecodedCommand := by
  refine ⟨fun s d rest i hs hd => (step_action hs).trans (performAction_cmdWrite hd), fun s w i hw hd => ?_⟩
  have hword : (BitVec.ofNat 64 (w % 2 ^ 32)).setWidth 32 = BitVec.ofNat 32 w := by
    apply BitVec.eq_of_toNat_eq
    simp only [BitVec.toNat_setWidth, BitVec.toNat_ofNat]
    omega
  exact (step_action rfl).trans (performAction_cmdWrite (s := s) (hword ▸ hd))

end Sys2Proof.Machine

namespace Sys2Proof.Machine

/-! ## A command by its fault (R101, R111, R141, R152) -/

/-- A command that raises a fault on a GVC that is not stopped ends in that fault's entry (R152). -/
theorem exec_of_commandFault_some {i : Instr} {s : State} {code : FaultCode} {a : Nat} (hs : s.fault = false)
    (h : commandFault i s = some (code, a)) : exec i s = .next (raiseFault code a (encode i) s) := by
  rw [exec_running i hs, commandResult_eq, h]
  rfl

/-- A command that raises no fault on a GVC that is not stopped makes its writes (R37). -/
theorem exec_of_commandFault_none {i : Instr} {s : State} (hs : s.fault = false) (h : commandFault i s = none) :
    exec i s = .next (completedState i s) := by
  rw [exec_running i hs, commandResult_eq, h]
  rfl

/-- GVENC raises no fault when its target bytes are all writable (R101). -/
theorem commandFault_gvenc_eq_none {s : State} :
    commandFault .gvenc s = none ↔ allWritable s s.outPtr.toNat (quadBlockLength s.v) :=
  Option.map_eq_none_iff.trans firstInaccessible_eq_none

/-- GVDECS raises no fault when its block is readable (R110, R111). -/
theorem commandFault_gvdecs_eq_none {s : State} :
    commandFault .gvdecs s = none ↔
      allReadable s s.inPtr.toNat (blockLength (Memory.read s.mem s.inPtr.toNat)) :=
  Option.map_eq_none_iff.trans firstInaccessible_eq_none

/-- GVENC's fault is at the lowest target byte that is not writable (R101, R153). -/
theorem commandFault_gvenc_of_lowestDenied {s : State} {x : Nat}
    (h : lowestDenied (writableAt s) s.outPtr.toNat (quadBlockLength s.v) x) :
    commandFault .gvenc s = some (.writeFault, x) := by
  rw [commandFault, firstInaccessible_eq_some.mpr h]
  rfl

/-- GVDECS's fault is at the lowest byte of its block that is not readable (R110, R153). -/
theorem commandFault_gvdecs_of_lowestDenied {s : State} {x : Nat}
    (h : lowestDenied (readableAt s) s.inPtr.toNat (blockLength (Memory.read s.mem s.inPtr.toNat)) x) :
    commandFault .gvdecs s = some (.readFault, x) := by
  rw [commandFault, firstInaccessible_eq_some.mpr h]
  rfl

/-- With the SIMD path present and the table built, GVDECV's fault is at the lowest of its seventeen bytes that is not
readable (R141, R143). -/
theorem commandFault_gvdecv_of_lowestDenied {s : State} {x : Nat} (hsimd : s.params.hasSimd = true)
    (htv : s.tableValid = true) (h : lowestDenied (readableAt s) s.inPtr.toNat 17 x) :
    commandFault .gvdecv s = some (.readFault, x) := by
  simp [commandFault, hsimd, htv, firstInaccessible_eq_some.mpr h]

/-! ## The platform's predicates and the top of the address space (R52-R54, R105, R114) -/

/-- What `readableAt` says of an address (R52). -/
theorem readableAt_eq_true {s : State} {a : Nat} :
    readableAt s a = true ↔
      a < 2 ^ s.params.aw ∧ ∃ g ∈ s.regions, g.readable = true ∧ g.base ≤ a ∧ a < g.base + g.size := by
  simp [readableAt, Region.covers]

/-- What `writableAt` says of an address (R53). -/
theorem writableAt_eq_true {s : State} {a : Nat} :
    writableAt s a = true ↔
      a < 2 ^ s.params.aw ∧ ∃ g ∈ s.regions, g.writable = true ∧ g.base ≤ a ∧ a < g.base + g.size := by
  simp [writableAt, Region.covers]

/-- An address past the top is not readable (R52, R54). -/
theorem readableAt_past_top {s : State} {a : Nat} (h : 2 ^ s.params.aw ≤ a) : readableAt s a = false :=
  Bool.eq_false_iff.mpr fun hr => absurd (readableAt_lt hr) (Nat.not_lt.mpr h)

/-- An address past the top is not writable (R53, R54). -/
theorem writableAt_past_top {s : State} {a : Nat} (h : 2 ^ s.params.aw ≤ a) : writableAt s a = false :=
  Bool.eq_false_iff.mpr fun hw => absurd (writableAt_lt hw) (Nat.not_lt.mpr h)

/-- Settles O45: `readableAt_past_top` and `writableAt_past_top` from 2^AW on, and below it the regions decide. -/
theorem addressesPastTheTopAreDenied : Obligations.AddressesPastTheTopAreDenied := by
  intro s a
  refine ⟨fun htop => ⟨readableAt_past_top htop, writableAt_past_top htop⟩, fun hlt => ⟨?read, ?write⟩⟩
  case read => exact readableAt_eq_true.trans (and_iff_right hlt)
  case write => exact writableAt_eq_true.trans (and_iff_right hlt)

/-- Fault entry at the first address past the top truncates it to FADDR = 0 (R54, R152). -/
theorem raiseFault_top (code : FaultCode) (w : Word) (s : State) :
    raiseFault code (2 ^ s.params.aw) w s = { s with fault := true, fcode := code, faddr := 0, fcmd := w } := by
  simp [raiseFault, truncAW]

/-- Settles O13: the lowest target byte denied is the first past the top, 2^AW, which FADDR truncates to 0. -/
theorem gvencPastTheTopFaultsAtZero : Obligations.GvencPastTheTopFaultsAtZero := by
  intro s hs hptr hpast hok
  have hdenied : lowestDenied (writableAt s) s.outPtr.toNat (quadBlockLength s.v) (2 ^ s.params.aw) :=
    ⟨hptr.le, hpast, writableAt_past_top le_rfl, hok⟩
  rw [exec_of_commandFault_some hs (commandFault_gvenc_of_lowestDenied hdenied), raiseFault_top]
  rfl

/-- Settles O44: the lowest byte denied is the first past the top, 2^AW, for either decoder whose bytes reach it, and
FADDR truncates it to 0. -/
theorem decodersPastTheTopFaultAtZero : Obligations.DecodersPastTheTopFaultAtZero := by
  intro s hs hptr hok
  have hdenied : ∀ n, 2 ^ s.params.aw < s.inPtr.toNat + n →
      lowestDenied (readableAt s) s.inPtr.toNat n (2 ^ s.params.aw) :=
    fun n hpast => ⟨hptr.le, hpast, readableAt_past_top le_rfl, hok⟩
  refine ⟨fun hpast => ?gvdecs, fun hsimd htv hpast => ?gvdecv⟩
  case gvdecs =>
    rw [exec_of_commandFault_some hs (commandFault_gvdecs_of_lowestDenied (hdenied _ hpast)), raiseFault_top]
    rfl
  case gvdecv =>
    rw [exec_of_commandFault_some hs (commandFault_gvdecv_of_lowestDenied hsimd htv (hdenied _ hpast)),
      raiseFault_top]
    rfl

/-! ## Blocks and bytes in memory (R55, R69, R79, R80, R100, R110) -/

/-- Settles O10: the selector read back is the quad's own, whose fields are the byte lengths, and each value's bytes
stand at its payload offset. -/
theorem gvencBlockLayoutInMemory : Obligations.GvencBlockLayoutInMemory := by
  intro s hs _ hok
  have hsel : Memory.read (completedState .gvenc s).mem s.outPtr.toNat = selectorOf s.v := read_encoded_selector s
  refine ⟨_, exec_of_commandFault_none hs (commandFault_gvenc_eq_none.mpr hok), fun k => ?_⟩
  rw [hsel]
  exact ⟨valueLength_selectorOf s.v k, fun i hi => read_encoded_value s k hi⟩

/-- A listed address of a canonical memory reads as the byte listed (log 3). -/
theorem Memory.read_of_mem {m : Memory} {a : Nat} {b : Byte} (hwf : Memory.wf m) (h : (a, b) ∈ m) :
    Memory.read m a = b := by
  induction m with
  | nil => cases h
  | cons c m ih =>
    obtain ⟨hc, hm⟩ := List.pairwise_cons.mp hwf
    rw [Memory.read_cons]
    rcases List.mem_cons.mp h with rfl | h
    · exact if_pos rfl
    · rw [if_neg (hc _ h).ne]
      exact ih hm h

/-- What GVDECS gives for value k, as a number: its payload bytes with weights 2^(8i) (R80, R110). -/
theorem scalarValue_toNat (m : Memory) (p : Nat) (sel : Byte) (k : Fin 4) :
    (scalarValue m p sel k).toNat =
      ∑ i ∈ Finset.range (valueLength sel k.val),
        (Memory.read m (p + 1 + payloadOffset sel k.val + i)).toNat * 2 ^ (8 * i) := by
  have hfits : Memory.readValue m (p + 1 + payloadOffset sel k.val) (valueLength sel k.val) < 2 ^ 32 :=
    calc _ < 256 ^ valueLength sel k.val := Memory.readValue_lt _ _ _
      _ ≤ 256 ^ 4 := Nat.pow_le_pow_right (by decide) (valueLength_le _ _)
      _ = 2 ^ 32 := by decide
  rw [scalarValue, BitVec.toNat_ofNat, Nat.mod_eq_of_lt hfits, Memory.readValue_eq_sum]

/-- R0..R3 of a completed GVDECS, as numbers (R110). -/
theorem completedState_gvdecs_r_toNat (s : State) (k : Fin 4) :
    ((completedState .gvdecs s).r.get k).toNat =
      ∑ i ∈ Finset.range (valueLength (Memory.read s.mem s.inPtr.toNat) k.val),
        (Memory.read s.mem
          (s.inPtr.toNat + 1 + payloadOffset (Memory.read s.mem s.inPtr.toNat) k.val + i)).toNat * 2 ^ (8 * i) := by
  rw [← scalarValue_toNat]
  exact congrArg BitVec.toNat (Vector.getElem_ofFn k.isLt)

/-- Settles O47: an empty memory reads as the platform's bytes everywhere, and GVDECS completes on it with the sum of
those bytes. -/
theorem unwrittenBytesAreThePlatforms : Obligations.UnwrittenBytesAreThePlatforms := by
  refine ⟨fun m a h => Memory.read_unwritten h, fun m a b hwf h => Memory.read_of_mem hwf h,
    fun s k hs hmem hok => ?_⟩
  have hread : ∀ a, Memory.read s.mem a = Config.unwrittenByte a := fun a => by rw [hmem, Memory.read_nil]
  have hnone : commandFault .gvdecs s = none := commandFault_gvdecs_eq_none.mpr (by rwa [hread])
  refine ⟨_, exec_of_commandFault_none hs hnone, ?_⟩
  rw [completedState_gvdecs_r_toNat]
  simp only [hread]

/-! ## Where a step stops (R50, log 7) -/

/-- A host store to an address that does not exist stops the model (R50, log 7). -/
theorem performAction_memWrite_absent {s : State} {a : Nat} (b : Byte) (h : 2 ^ s.params.aw ≤ a) :
    performAction (.memWrite a b) s = .fault (.noSuchHostAddress a) := if_neg (Nat.not_lt.mpr h)

/-- A host load from an address that does not exist stops the model (R50, log 7). -/
theorem performAction_memRead_absent {s : State} {a : Nat} (h : 2 ^ s.params.aw ≤ a) :
    performAction (.memRead a) s = .fault (.noSuchHostAddress a) := if_neg (Nat.not_lt.mpr h)

/-- Executing any word, legal or not, answers a next state (R12, R154). -/
theorem execute_answers_next (w : Word) (s : State) : ∃ t, execute w s = .next t := by
  unfold execute
  split
  · exact everyCommandAnswersANextState _ s
  · exact ⟨_, rfl⟩

/-- A host write to any offset answers a next state (R40). -/
theorem hostWrite_answers_next (off : Nat) (d : Data) (s : State) : ∃ t, hostWrite off d s = .next t := by
  unfold hostWrite
  split
  · exact ⟨_, rfl⟩
  · exact execute_answers_next _ s
  · exact ⟨_, rfl⟩

/-- An action answers a next state, or it is the host's access to an address that does not exist. -/
theorem performAction_next_or_absent (act : Action) (s : State) :
    (∃ t, performAction act s = .next t) ∨
    ∃ a, 2 ^ s.params.aw ≤ a ∧ ((∃ b, act = .memWrite a b) ∨ act = .memRead a) ∧
      performAction act s = .fault (.noSuchHostAddress a) := by
  cases act with
  | regWrite off d => exact .inl (hostWrite_answers_next off d s)
  | busWrite a d =>
    cases ho : windowOffset s.params a with
    | none => exact .inl ⟨s, by simp [performAction, busWrite, ho]⟩
    | some off => simpa [performAction, busWrite, ho] using hostWrite_answers_next off d s
  | busRead a => cases ho : windowOffset s.params a <;> simp [performAction, busRead, ho]
  | memWrite a b =>
    rcases Nat.lt_or_ge a (2 ^ s.params.aw) with h | h
    · exact .inl ⟨_, performAction_memWrite b h⟩
    · exact .inr ⟨a, h, .inl ⟨b, rfl⟩, performAction_memWrite_absent b h⟩
  | memRead a =>
    rcases Nat.lt_or_ge a (2 ^ s.params.aw) with h | h
    · exact .inl ⟨_, performAction_memRead h⟩
    · exact .inr ⟨a, h, .inr rfl, performAction_memRead_absent h⟩
  | regRead | reset => exact .inl ⟨_, rfl⟩

/-- A step answers a next state, or the next action is the host's access to an address that does not exist. -/
theorem step_next_or_absent (s : State) :
    (∃ t, step s = .next t) ∨
    ∃ a rest, 2 ^ s.params.aw ≤ a ∧ ((∃ b, s.script = .memWrite a b :: rest) ∨ s.script = .memRead a :: rest) ∧
      step s = .fault (.noSuchHostAddress a) := by
  cases hs : s.script with
  | nil => exact .inl ⟨s, step_ended hs⟩
  | cons act rest =>
    rw [step_action hs]
    rcases performAction_next_or_absent act { s with script := rest } with hn | ⟨a, ha, hact, hf⟩
    · exact .inl hn
    · exact .inr ⟨a, rest, ha, by simpa using hact, hf⟩

/-- Settles O35: `step_next_or_absent` gives every outcome of a step, and the two host accesses do stop at such an
address. -/
theorem stepsStopOnlyAtAbsentHostAddresses : Obligations.StepsStopOnlyAtAbsentHostAddresses := by
  intro s
  refine ⟨fun q hq => ?refused, fun f => ⟨fun hf => ?stopped, ?absent⟩⟩
  case refused =>
    rcases step_next_or_absent s with ⟨t, h⟩ | ⟨a, rest, -, -, h⟩ <;> cases h.symm.trans hq
  case stopped =>
    rcases step_next_or_absent s with ⟨t, h⟩ | ⟨a, rest, ha, hacc, h⟩ <;> cases h.symm.trans hf
    exact ⟨a, rest, ha, rfl, hacc⟩
  case absent =>
    rintro ⟨a, rest, ha, rfl, ⟨b, hs⟩ | hs⟩
    · exact (step_action hs).trans (performAction_memWrite_absent b ha)
    · exact (step_action hs).trans (performAction_memRead_absent ha)

end Sys2Proof.Machine

namespace Sys2Proof

/-! ## The command word (R70-R74) -/

/-- A word with both reserved fields zero is the command word of its OP and SEL (R70). -/
theorem eq_commandWord {w : Word} {op : BitVec 4} {sel : Byte} (hop : opField w = op) (h0 : rsv0Field w = 0)
    (hsel : selField w = sel) (h1 : rsv1Field w = 0) : w = commandWord op sel :=
  word_eq_of_fields (by rw [hop, opField_commandWord]) (by rw [h0, rsv0Field_commandWord])
    (by rw [hsel, selField_commandWord]) (by rw [h1, rsv1Field_commandWord])

/-- The word of a command that the GVC has decodes to the command (R72). -/
theorem decode_encode {hasSimd : Bool} {i : Instr} (h : i.wellFormed hasSimd = true) :
    decode hasSimd (encode i) = .ok i := by
  cases i with
  | gvenc => exact decode_word_gvenc hasSimd
  | gvdecs => exact decode_word_gvdecs hasSimd
  | gvtbl => exact decode_word_gvtbl hasSimd
  | gvtbrd sel => simp [decode, encode, decodeTableRead]
  | gvdecv =>
    obtain rfl : hasSimd = true := h
    exact decode_word_gvdecv

/-- A word with no operand that decodes is the command word of its OP with SEL zero. -/
theorem eq_commandWord_of_decodePlain {w : Word} {op : BitVec 4} {i j : Instr} (hop : opField w = op)
    (h : decodePlain w i = .ok j) : w = commandWord op 0 ∧ j = i := by
  obtain ⟨h0, h1, hsel, hj⟩ := decodePlain_eq_ok.mp h
  exact ⟨eq_commandWord hop h0 hsel h1, hj⟩

/-- The words that decode to a command: its encoding alone, and only where the GVC has the command (R72, R74). -/
theorem decode_eq_ok_iff {hasSimd : Bool} {w : Word} {i : Instr} :
    decode hasSimd w = .ok i ↔ w = encode i ∧ i.wellFormed hasSimd = true := by
  refine ⟨fun h => ?_, fun ⟨hw, hwf⟩ => hw ▸ decode_encode hwf⟩
  rcases decode_cases h with ⟨hop, h⟩ | ⟨hop, h⟩ | ⟨hop, h⟩ | ⟨hop, h⟩ | ⟨hop, hsimd, h⟩
  · obtain ⟨hw, rfl⟩ := eq_commandWord_of_decodePlain hop h
    exact ⟨hw, rfl⟩
  · obtain ⟨hw, rfl⟩ := eq_commandWord_of_decodePlain hop h
    exact ⟨hw, rfl⟩
  · obtain ⟨hw, rfl⟩ := eq_commandWord_of_decodePlain hop h
    exact ⟨hw, rfl⟩
  · obtain ⟨h0, h1, rfl⟩ := decodeTableRead_eq_ok.mp h
    exact ⟨eq_commandWord hop h0 rfl h1, rfl⟩
  · obtain ⟨hw, rfl⟩ := eq_commandWord_of_decodePlain hop h
    exact ⟨hw, hsimd⟩

/-- Settles O1: `decode_encode` goes through the commands. -/
theorem decodeEncodeRoundTrip : Obligations.DecodeEncodeRoundTrip :=
  fun _ _ => decode_encode

/-- Settles O2: `decode_eq_ok_iff` leaves a command one word. -/
theorem decodedWordIsItsEncoding : Obligations.DecodedWordIsItsEncoding := by
  intro hasSimd w i h
  obtain ⟨hw, hwf⟩ := decode_eq_ok_iff.mp h
  exact ⟨hw.symm, hwf⟩

/-- Settles O4: the first four words are encodings of commands that every GVC has, the fifth is that of GVDECV. -/
theorem sampleCommandWordsDecode : Obligations.SampleCommandWordsDecode := by
  intro hasSimd
  exact ⟨decode_encode (i := .gvenc) rfl, decode_encode (i := .gvdecs) rfl, decode_encode (i := .gvtbl) rfl,
    decode_encode (i := .gvtbrd 0xFF) rfl, fun h => (decode_eq_ok_iff.mp h).2,
    fun h => decode_eq_ok_iff.mpr ⟨rfl, h⟩⟩

/-! ## Illegal words (R73) -/

/-- The five opcodes of R71 are those other than 0 and below 6. -/
theorem opcode_cases (op : BitVec 4) :
    (op ≠ 0 ∧ ¬ 6 ≤ op) ↔ op = 1 ∨ op = 2 ∨ op = 3 ∨ op = 4 ∨ op = 5 := by
  revert op; decide

/-- The words that decode, by their fields: none of R73's four cases holds. -/
theorem exists_decode_iff {hasSimd : Bool} {w : Word} :
    (∃ i, decode hasSimd w = .ok i) ↔
      (opField w ≠ 0 ∧ ¬ 6 ≤ opField w) ∧ (rsv0Field w = 0 ∧ rsv1Field w = 0) ∧
        (selField w = 0 ∨ opField w = 4) ∧ (opField w = 5 → hasSimd = true) := by
  rw [opcode_cases]
  constructor
  · rintro ⟨i, h⟩
    obtain ⟨rfl, hwf⟩ := decode_eq_ok_iff.mp h
    cases i with
    | gvdecv =>
      obtain rfl : hasSimd = true := hwf
      simp [encode]
    | gvenc | gvdecs | gvtbl | gvtbrd => simp [encode]
  · rintro ⟨hop, ⟨h0, h1⟩, hsel, hsimd⟩
    have decodes {i : Instr} (hw : w = encode i) (hwf : i.wellFormed hasSimd = true) :
        ∃ i, decode hasSimd w = .ok i := ⟨i, decode_eq_ok_iff.mpr ⟨hw, hwf⟩⟩
    have hplain : opField w ≠ 4 → selField w = 0 := hsel.resolve_right
    rcases hop with hop | hop | hop | hop | hop
    · exact decodes (i := .gvenc) (eq_commandWord hop h0 (hplain (by simp [hop])) h1) rfl
    · exact decodes (i := .gvdecs) (eq_commandWord hop h0 (hplain (by simp [hop])) h1) rfl
    · exact decodes (i := .gvtbl) (eq_commandWord hop h0 (hplain (by simp [hop])) h1) rfl
    · exact decodes (i := .gvtbrd (selField w)) (eq_commandWord hop h0 rfl h1) rfl
    · exact decodes (i := .gvdecv) (eq_commandWord hop h0 (hplain (by simp [hop])) h1) (hsimd hop)

end Sys2Proof

namespace Sys2Proof.Machine

/-- Executing an illegal word on a GVC that is not stopped raises ILLEGAL_CMD (R73, R154). -/
theorem execute_illegal {w : Word} {s : State} (hs : s.fault = false)
    (hw : ∀ i, decode s.params.hasSimd w ≠ .ok i) : execute w s = .next (raiseFault .illegalCmd 0 w s) := by
  unfold execute
  split
  · next i hd => exact absurd hd (hw i)
  · exact unlessFaulted_running _ hs

/-- Settles O3: the illegal words are those that `exists_decode_iff` leaves, and `execute_illegal` with FADDR = 0. -/
theorem illegalWordsRaiseIllegalCmd : Obligations.IllegalWordsRaiseIllegalCmd := by
  refine ⟨fun hasSimd w => ?_, fun s d hs hd => ?_⟩
  · show _ ↔ (opField w = 0 ∨ 6 ≤ opField w) ∨ (rsv0Field w ≠ 0 ∨ rsv1Field w ≠ 0) ∨
      (selField w ≠ 0 ∧ opField w ≠ 4) ∨ (opField w = 5 ∧ hasSimd = false)
    rw [← not_exists, exists_decode_iff, ← Bool.not_eq_true]
    tauto
  · refine (execute_illegal hs hd).trans ?_
    rw [raiseFault, truncAW_zero]

/-! ## Assembled commands (R76) -/

/-- The data of GVTBRD's line holds the encoding of GVTBRD in its low 32 bits. -/
theorem setWidth_gvtbrd_data {n : Nat} (h : n ≤ 255) :
    (BitVec.ofNat 64 (0x00000004 + n * 0x100)).setWidth 32 = encode (.gvtbrd (BitVec.ofNat 8 n)) := by
  apply BitVec.eq_of_toNat_eq
  simp only [encode, commandWord_toNat, BitVec.toNat_setWidth, BitVec.toNat_ofNat, BitVec.reduceToNat]
  omega

/-- Settles O36: the word of each line is the encoding of its command, which `decode_encode` decodes. -/
theorem assembledCommandsDecode : Obligations.AssembledCommandsDecode := by
  intro l p
  refine ⟨fun s => ⟨fun h => if_neg (by omega), fun h => ⟨_, if_pos h, fun hasSimd => ?gvtbrd⟩⟩,
    ⟨_, rfl, fun _ => decode_encode (i := .gvenc) rfl⟩, ⟨_, rfl, fun _ => decode_encode (i := .gvdecs) rfl⟩,
    ⟨_, rfl, fun _ => decode_encode (i := .gvtbl) rfl⟩, ⟨_, rfl, decode_encode (i := .gvdecv) rfl⟩⟩
  case gvtbrd => rw [setWidth_gvtbrd_data h, decode_encode rfl]

/-! ## Payload lengths (R84) -/

/-- A selector has its four fields as digits in base 4, the first one most significant (R15, R79). -/
theorem selector_toNat (x : Byte) :
    x.toNat = (selectorField x 0).toNat * 64 + (selectorField x 1).toNat * 16 + (selectorField x 2).toNat * 4 +
      (selectorField x 3).toNat := by
  have := x.isLt
  simp only [selectorField, BitVec.extractLsb'_toNat, Nat.shiftRight_eq_div_pow]
  omega

/-- P(s) is 4 with all fields zero, and 16 with all fields 3. -/
theorem payloadLength_extremes (x : Byte) :
    (payloadLength x = 4 ↔ x.toNat = 0) ∧ (payloadLength x = 16 ↔ x.toNat = 255) := by
  have hx := selector_toNat x
  have h0 := (selectorField x 0).isLt
  have h1 := (selectorField x 1).isLt
  have h2 := (selectorField x 2).isLt
  have h3 := (selectorField x 3).isLt
  simp only [payloadLength_eq, valueLength]
  omega

/-- The number of selectors with payload length n. -/
def selectorCount (n : Nat) : Nat :=
  ((List.range 256).filter fun x => payloadLength (BitVec.ofNat 8 x) == n).length

/-- No selector has a payload length outside 4..16. -/
theorem selectorCount_outside {n : Nat} (h : n < 4 ∨ 16 < n) : selectorCount n = 0 := by
  rw [selectorCount, List.length_eq_zero_iff, List.filter_eq_nil_iff]
  intro x _
  have := payloadLength_ge (BitVec.ofNat 8 x)
  have := payloadLength_le (BitVec.ofNat 8 x)
  simp only [beq_iff_eq]
  omega

/-- R84's counts, for each payload length from 4 on. -/
theorem selectorCount_from_four :
    (List.range 13).map (fun j => selectorCount (4 + j)) = [1, 4, 10, 20, 31, 40, 44, 40, 31, 20, 10, 4, 1] := by
  decide

/-- Settles O37: the extremes by `payloadLength_extremes`, the counts by `selectorCount_from_four`. -/
theorem selectorCensus : Obligations.SelectorCensus := by
  refine ⟨fun x => ?extremes, fun n => ?counts⟩
  case extremes =>
    rw [← BitVec.toNat_inj, ← BitVec.toNat_inj]
    exact ⟨Nat.add_comm _ _, payloadLength_extremes x⟩
  case counts =>
    show selectorCount n = _
    split
    · next h => exact selectorCount_outside h
    · next h =>
      have hn : n - 4 < 13 := by omega
      rw [← selectorCount_from_four, List.getD_eq_getElem _ _ (by simpa using hn)]
      simp only [List.getElem_map, List.getElem_range]
      congr 1
      omega

end Sys2Proof.Machine

namespace Sys2Proof.Machine

/-! ## GVENC's writes and OUT_PTR (R101) -/

/-- A command that completes on a GVC that is not stopped answers its writes (R37). -/
theorem eq_completedState_of_exec {i : Instr} {s t : State} (hs : s.fault = false) (h : exec i s = .next t)
    (ht : t.fault = false) : t = completedState i s := by
  obtain rfl := eq_commandResult_of_exec hs h
  exact commandResult_of_completed ht

/-- A range of writable bytes ends at the top of the address space or below it (R53). -/
theorem range_le_top_of_allWritable {s : State} {a n : Nat} (hn : 0 < n) (h : allWritable s a n) :
    a + n ≤ 2 ^ s.params.aw := by
  have := writableAt_lt (h (n - 1) (by omega))
  omega

/-- A number from 1 to 2^AW truncates to zero only where it is 2^AW (R54). -/
theorem truncAW_eq_zero_iff {p : Params} {n : Nat} (hpos : 0 < n) (hle : n ≤ 2 ^ p.aw) :
    truncAW p n = 0 ↔ n = 2 ^ p.aw := by
  rw [← BitVec.toNat_inj, truncAW_toNat]
  show n % 2 ^ p.aw = 0 ↔ _
  rcases hle.lt_or_eq with hlt | rfl
  · rw [Nat.mod_eq_of_lt hlt]
    omega
  · simp

/-- Settles O9: the access check decides between the fault's entry and the writes; the block ends at or below the top
because its last byte is writable, so OUT_PTR wraps only to 0. -/
theorem gvencAppendsTheBlockOrFaults : Obligations.GvencAppendsTheBlockOrFaults := by
  intro s hs _ _
  refine ⟨fun x hx => exec_of_commandFault_some hs (commandFault_gvenc_of_lowestDenied hx), fun hok => ?_⟩
  have hpos : 0 < quadBlockLength s.v := Nat.lt_of_lt_of_le (by decide) (quadBlockLength_ge s.v)
  have htop := range_le_top_of_allWritable hpos hok
  refine ⟨completedState .gvenc s, exec_of_commandFault_none hs (commandFault_gvenc_eq_none.mpr hok), rfl,
    truncAW_toNat _ _, truncAW_eq_zero_iff (Nat.add_pos_right _ hpos) htop, toNat_ofNat_quadBlockLength s.v,
    blockOf_length s.v, fun j => ?inside, fun x hx => ?outside⟩
  case inside => exact Memory.read_writeBytes_inside _ _ _ j.val j.isLt
  case outside => exact Memory.read_writeBytes_outside _ _ _ (blockOf_length s.v ▸ hx)

/-! ## The block that a completed GVENC leaves in memory (R102, R103) -/

/-- The selector that a completed GVENC leaves at OUT_PTR is the quad's own (R102). -/
theorem read_gvenc_selector {s t : State} (hs : s.fault = false) (h : exec .gvenc s = .next t)
    (ht : t.fault = false) : Memory.read t.mem s.outPtr.toNat = selectorOf s.v := by
  obtain rfl := eq_completedState_of_exec hs h ht
  exact read_encoded_selector s

/-- Byte i of value k as a completed GVENC leaves it after OUT_PTR (R80, R100). -/
theorem read_gvenc_value {s t : State} (hs : s.fault = false) (h : exec .gvenc s = .next t)
    (ht : t.fault = false) (k : Fin 4) {i : Nat} (hi : i < byteLength (s.v.get k)) :
    Memory.read t.mem (s.outPtr.toNat + 1 + payloadOffset (selectorOf s.v) k.val + i) = wordByte (s.v.get k) i := by
  obtain rfl := eq_completedState_of_exec hs h ht
  exact read_encoded_value s k hi

/-- Four digits in base 4 make the byte that concatenates them as two-bit fields, the first one most significant and
taken modulo 4. -/
theorem ofNat_eq_append_fields {a b c d : Nat} (hb : b < 4) (hc : c < 4) (hd : d < 4) :
    BitVec.ofNat 8 (a * 64 + b * 16 + c * 4 + d) =
      BitVec.ofNat 2 a ++ BitVec.ofNat 2 b ++ BitVec.ofNat 2 c ++ BitVec.ofNat 2 d := by
  apply BitVec.eq_of_toNat_eq
  simp only [toNat_append_eq_add, BitVec.toNat_ofNat]
  omega

/-- Settles O11: the selector read back is the quad's own, whose four digits are its two-bit fields. -/
theorem gvencSelectorByte : Obligations.GvencSelectorByte := by
  intro s t hs _ h ht
  rw [read_gvenc_selector hs h ht]
  have hdigit : ∀ v : Word, byteLength v - 1 < 4 := fun v => by have := byteLength_le v; omega
  exact ofNat_eq_append_fields (hdigit _) (hdigit _) (hdigit _)

/-- A value longer than one byte does not fit in a byte less than its byte length (R14). -/
theorem two_pow_le_of_byteLength {v : Word} (h : 1 < byteLength v) : 2 ^ (8 * (byteLength v - 1)) ≤ v.toNat := by
  revert h
  unfold byteLength
  split_ifs <;> simp_all [BitVec.le_def] <;> omega

/-- No length that a value fits in is below its byte length (R14). -/
theorem byteLength_le_of_toNat_lt {v : Word} {L : Nat} (hL : 1 ≤ L) (h : v.toNat < 2 ^ (8 * L)) :
    byteLength v ≤ L := by
  by_contra hlt
  have hpow : 2 ^ (8 * L) ≤ 2 ^ (8 * (byteLength v - 1)) := Nat.pow_le_pow_right (by decide) (by omega)
  exact absurd h (Nat.not_lt.mpr (hpow.trans (two_pow_le_of_byteLength (by omega))))

/-- The top byte of a value longer than one byte is not zero (R82): it is the value's quotient by the power that the
value reaches. -/
theorem wordByte_top_ne_zero {v : Word} (h : 1 < byteLength v) : wordByte v (byteLength v - 1) ≠ 0 := by
  have hlt : v.toNat / 2 ^ (8 * (byteLength v - 1)) < 256 := by
    rw [Nat.div_lt_iff_lt_mul (Nat.two_pow_pos _), show 256 = 2 ^ 8 from rfl, ← Nat.pow_add,
      show 8 + 8 * (byteLength v - 1) = 8 * byteLength v by omega]
    exact toNat_lt_of_byteLength v
  have hpos := Nat.div_pos (two_pow_le_of_byteLength h) (Nat.two_pow_pos _)
  rw [Ne, ← BitVec.toNat_inj, wordByte_toNat, Nat.mod_eq_of_lt hlt]
  exact hpos.ne'

/-- Settles O12: each field is its value's byte length, which is the smallest that fits and has a top byte that is not
zero; the value 0 is the one byte 0x00. -/
theorem gvencBlocksAreMinimal : Obligations.GvencBlocksAreMinimal := by
  intro s t hs _ h ht k
  have hlen : valueLength (selectorOf s.v) k.val = byteLength (s.v.get k) := valueLength_selectorOf s.v k
  rw [read_gvenc_selector hs h ht, hlen]
  refine ⟨toNat_lt_of_byteLength _, fun L => byteLength_le_of_toNat_lt, fun hlong => ?top, fun hzero => ?zero⟩
  case top =>
    rw [show s.outPtr.toNat + payloadOffset (selectorOf s.v) k.val + byteLength (s.v.get k)
        = s.outPtr.toNat + 1 + payloadOffset (selectorOf s.v) k.val + (byteLength (s.v.get k) - 1) by omega,
      read_gvenc_value hs h ht k (by omega)]
    exact wordByte_top_ne_zero hlong
  case zero =>
    have hfield : selectorField (selectorOf s.v) k.val = 0 := by
      rw [hzero] at hlen
      exact BitVec.eq_of_toNat_eq (Nat.succ.inj hlen)
    have hbyte := read_gvenc_value hs h ht k (byteLength_pos (s.v.get k))
    rw [hzero] at hbyte
    exact ⟨hfield, hbyte⟩

end Sys2Proof.Machine

namespace Sys2Proof.Machine

/-! ## What GVDECS takes from memory (R110-R112) -/

/-- Settles O15: the access check decides between the fault's entry and the writes, whose values are
`completedState_gvdecs_r_toNat`'s sums. -/
theorem gvdecsDecodesTheBlockOrFaults : Obligations.GvdecsDecodesTheBlockOrFaults := by
  intro s hs
  refine ⟨fun x hx => exec_of_commandFault_some hs (commandFault_gvdecs_of_lowestDenied hx), fun hok => ?_⟩
  exact ⟨completedState .gvdecs s, exec_of_commandFault_none hs (commandFault_gvdecs_eq_none.mpr hok), rfl,
    toNat_ofNat_blockLength _, completedState_gvdecs_r_toNat s⟩

/-- Memories that agree on a block agree on its selector. -/
theorem read_selector_of_sameInside {m m' : Memory} {p : Nat} {sel : Byte}
    (h : sameInside m m' p (blockLength sel)) : Memory.read m' p = Memory.read m p :=
  h 0 (Nat.lt_of_lt_of_le (by decide) (blockLength_ge sel))

/-- The value that GVDECS gives depends on the bytes of its block alone. -/
theorem scalarValue_of_sameInside {m m' : Memory} {p : Nat} {sel : Byte}
    (h : sameInside m m' p (blockLength sel)) : scalarValue m' p sel = scalarValue m p sel := by
  funext k
  refine congrArg _ (Memory.readValue_congr fun j hj => ?_)
  have hin : 1 + (payloadOffset sel k.val + j) < blockLength sel :=
    Nat.add_lt_add_left (payloadOffset_add_lt sel k hj) 1
  simpa only [Nat.add_assoc] using h _ hin

/-- Settles O16: GVDECS checks and reads a block that both memories hold alike. -/
theorem gvdecsDependsOnTheBlockAlone : Obligations.GvdecsDependsOnTheBlockAlone := by
  intro s t m hsame h
  have hsel := read_selector_of_sameInside hsame
  refine exec_of_sameFault h rfl ?access (fun _ ht => ?stopped) (fun code a ht => ?faulted) (fun _ ht => ?completed)
  case access => exact congrArg (fun b => (firstInaccessible (readableAt s) s.inPtr.toNat (blockLength b)).map _) hsel
  case stopped => rw [ht]
  case faulted => rw [ht]; rfl
  case completed => simp only [ht, completedState, hsel, scalarValue_of_sameInside hsame]

/-! ## Decoding a block that GVENC wrote (R113, R146) -/

/-- The bytes of a value past its byte length are zero (R14). -/
theorem wordByte_eq_zero_of_byteLength_le {v : Word} {b : Nat} (h : byteLength v ≤ b) : wordByte v b = 0 := by
  have hlt : v.toNat < 2 ^ (8 * b) :=
    Nat.lt_of_lt_of_le (toNat_lt_of_byteLength v) (Nat.pow_le_pow_right (by decide) (by omega))
  rw [← BitVec.toNat_inj, wordByte_toNat, Nat.div_eq_of_lt hlt]
  rfl

/-- In the memory that a completed GVENC leaves, value k of the block is V[k]: the bytes that are there are its low
ones, and the others are zero on both sides (R113). -/
theorem scalarValue_of_gvenc {s t : State} (hs : s.fault = false) (h : exec .gvenc s = .next t)
    (ht : t.fault = false) (k : Fin 4) : scalarValue t.mem s.outPtr.toNat (selectorOf s.v) k = s.v.get k := by
  refine word_ext fun b _ => ?_
  have hlen : valueLength (selectorOf s.v) k.val = byteLength (s.v.get k) := valueLength_selectorOf s.v k
  rw [scalarValue_byte, hlen]
  split
  · next hb => exact read_gvenc_value hs h ht k hb
  · next hb => exact (wordByte_eq_zero_of_byteLength_le (Nat.not_lt.mp hb)).symm

/-- LEN after a completed GVENC is the block length of the quad's selector (R83, R100). -/
theorem len_of_gvenc {s t : State} (hs : s.fault = false) (h : exec .gvenc s = .next t) (ht : t.fault = false) :
    t.len = BitVec.ofNat 32 (blockLength (selectorOf s.v)) := by
  rw [eq_completedState_of_exec hs h ht, blockLength_selectorOf]
  rfl

section AfterGvenc

-- GVENC completes from s to t, and u holds its block where IN_PTR points.
variable {s t u : State} (hs : s.fault = false) (h : exec .gvenc s = .next t) (ht : t.fault = false)
  (hptr : u.inPtr = s.outPtr) (hsame : sameInside t.mem u.mem s.outPtr.toNat t.len.toNat)
include hs h ht hptr hsame

/-- The selector at u's IN_PTR is the quad's own. -/
theorem read_selector_after_gvenc : Memory.read u.mem u.inPtr.toNat = selectorOf s.v := by
  rw [len_of_gvenc hs h ht, toNat_ofNat_blockLength] at hsame
  rw [hptr, read_selector_of_sameInside hsame, read_gvenc_selector hs h ht]

/-- What GVDECS writes from u is the quad and the LEN that GVENC wrote (R113). -/
theorem completedState_gvdecs_after_gvenc : completedState .gvdecs u = { u with r := s.v, len := t.len } := by
  have hsel := read_selector_after_gvenc hs h ht hptr hsame
  have hlen := len_of_gvenc hs h ht
  rw [hlen, toNat_ofNat_blockLength] at hsame
  have hquad : Vector.ofFn (scalarValue u.mem u.inPtr.toNat (selectorOf s.v)) = s.v := by
    rw [hptr, scalarValue_of_sameInside hsame, funext (scalarValue_of_gvenc hs h ht)]
    exact Vector.ofFn_getElem
  simp only [completedState, hsel, hquad, hlen]

end AfterGvenc

/-- Settles O24: the block that u holds is readable, so GVDECS completes, with what
`completedState_gvdecs_after_gvenc` says. -/
theorem scalarRoundTrip : Obligations.ScalarRoundTrip := by
  intro s t u hs _ h ht hu hptr hsame hok
  rw [len_of_gvenc hs h ht, toNat_ofNat_blockLength, ← read_selector_after_gvenc hs h ht hptr hsame] at hok
  exact ⟨_, exec_of_commandFault_none hu (commandFault_gvdecs_eq_none.mpr hok),
    completedState_gvdecs_after_gvenc hs h ht hptr hsame⟩

/-- With the SIMD path present and the table built, GVDECV raises no fault when its seventeen bytes are readable (R141,
R143). -/
theorem commandFault_gvdecv_eq_none {s : State} (hsimd : s.params.hasSimd = true) (htv : s.tableValid = true) :
    commandFault .gvdecv s = none ↔ allReadable s s.inPtr.toNat 17 := by
  simp [commandFault, hsimd, htv, firstInaccessible_eq_none]

/-- With the table built GVDECV writes what GVDECS writes (R146). -/
theorem completedState_gvdecv_eq_gvdecs {s : State} (hok : TableOk s) (htv : s.tableValid = true) :
    completedState .gvdecv s = completedState .gvdecs s := shuffleDecode_eq_scalar (hok htv)

/-- Settles O25: GVDECV completes with what GVDECS writes, which is `completedState_gvdecs_after_gvenc`'s. -/
theorem simdRoundTrip : Obligations.SimdRoundTrip := by
  intro s t u hs _ h ht hu hsimd htv htable hptr hsame hok
  exact ⟨_, exec_of_commandFault_none hu ((commandFault_gvdecv_eq_none hsimd htv).mpr hok),
    (completedState_gvdecv_eq_gvdecs htable htv).trans (completedState_gvdecs_after_gvenc hs h ht hptr hsame)⟩

end Sys2Proof.Machine

namespace Sys2Proof.Machine

/-! ## The entries of the table (R120, R122, R124) -/

/-- Byte j of an entry is byte j % 4 of lane j / 4 (R120). -/
theorem tableEntry_get_fin (z x : Byte) (j : Fin 16) :
    (tableEntry z x).get j = controlByte z x (j.val / 4) (j.val % 4) := by
  simp [tableEntry, Vector.get_eq_getElem]

/-- The built table holds at a selector the selector's entry (R124). -/
theorem shuffleTable_get_toFin (z x : Byte) : (shuffleTable z).get x.toFin = tableEntry z x :=
  shuffleTable_get z x x.isLt

/-- A payload index that an entry holds is below the payload's length, so below 16 (R122 b). -/
theorem controlByte_of_lt (z : Byte) {x : Byte} {k : Fin 4} {b : Nat} (h : b < valueLength x k.val) :
    ∃ n, n < payloadLength x ∧ n < 16 ∧ controlByte z x k.val b = BitVec.ofNat 8 n :=
  ⟨payloadOffset x k.val + b, payloadOffset_add_lt x k h,
    Nat.lt_of_lt_of_le (payloadOffset_add_lt x k h) (payloadLength_le x), if_pos h⟩

/-- A byte of an entry has bit 7 clear at the places below its value's length, where the indices are. -/
theorem controlByte_bit7_of_lt (z : Byte) {x : Byte} {k : Fin 4} {b : Nat} (h : b < valueLength x k.val) :
    (controlByte z x k.val b)[7] = false := by
  obtain ⟨n, -, hn, heq⟩ := controlByte_of_lt z h
  rw [heq, index_bit7 hn]

/-- A byte of an entry is ZERO_FILL from its value's length on. -/
theorem controlByte_of_le (z : Byte) {x : Byte} {k b : Nat} (h : valueLength x k ≤ b) : controlByte z x k b = z :=
  if_neg (Nat.not_lt.mpr h)

/-- The bytes of an entry are its control bytes, lane by lane. -/
theorem exists_controlByte_of_mem_tableEntry {z x e : Byte} (he : e ∈ (tableEntry z x).toList) :
    ∃ (k : Fin 4) (b : Nat), e = controlByte z x k.val b := by
  obtain ⟨j, hj⟩ := (List.mem_ofFn' ..).mp (Vector.toList_ofFn .. ▸ he)
  exact ⟨⟨j.val / 4, by omega⟩, j.val % 4, hj.symm⟩

/-- The bytes of an entry that equal ZERO_FILL are those with bit 7 set. -/
theorem filter_zeroFill_tableEntry {z : Byte} (hz : z[7] = true) (x : Byte) :
    (tableEntry z x).toList.filter (fun e => e == z) = (tableEntry z x).toList.filter fun e => e[7] := by
  refine List.filter_congr fun e he => ?_
  obtain ⟨k, b, rfl⟩ := exists_controlByte_of_mem_tableEntry he
  rcases Nat.lt_or_ge b (valueLength x k.val) with h | h
  · have hbit := controlByte_bit7_of_lt z h
    rw [hbit, beq_eq_false_iff_ne]
    intro heq
    simp [heq, hz] at hbit
  · rw [controlByte_of_le z h, hz, beq_self_eq_true]

/-- In one lane the bytes with bit 7 clear are its payload indices, in order. -/
theorem filter_lane {z : Byte} (hz : z[7] = true) (x : Byte) (k : Fin 4) :
    [controlByte z x k 0, controlByte z x k 1, controlByte z x k 2, controlByte z x k 3].filter (fun e => !e[7]) =
      (List.range' (payloadOffset x k) (valueLength x k)).map (BitVec.ofNat 8) := by
  have hidx : ∀ e ∈ (List.range' (payloadOffset x k) (valueLength x k)).map (BitVec.ofNat 8), (!e[7]) = true := by
    simp only [List.mem_map, List.mem_range'_1]
    rintro _ ⟨n, ⟨hle, hlt⟩, rfl⟩
    have := payloadOffset_add_lt x k (i := n - payloadOffset x k) (by omega)
    have := payloadLength_le x
    rw [index_bit7 (by omega), Bool.not_false]
  rw [controlByte_lane, List.filter_append, List.filter_eq_self.mpr hidx,
    List.filter_replicate_of_neg (by simp [hz]), List.append_nil]

/-- The bytes of an entry with bit 7 clear are the payload's indices 0, 1, ..., P(x) - 1, in order (R122 a). -/
theorem filter_tableEntry {z : Byte} (hz : z[7] = true) (x : Byte) :
    (tableEntry z x).toList.filter (fun e => !e[7]) = (List.range (payloadLength x)).map (BitVec.ofNat 8) := by
  have h0 := filter_lane hz x 0
  have h1 := filter_lane hz x 1
  have h2 := filter_lane hz x 2
  have h3 := filter_lane hz x 3
  have hcut (k : Nat) : List.range (payloadOffset x (k + 1)) =
      List.range (payloadOffset x k) ++ List.range' (payloadOffset x k) (valueLength x k) := by
    rw [payloadOffset_succ, List.range_eq_range', List.range_eq_range', ← List.range'_append_1, Nat.zero_add]
  rw [tableEntry_toList, List.filter_append, List.filter_append, List.filter_append, payloadLength, hcut 3, hcut 2,
    hcut 1, hcut 0, List.map_append, List.map_append, List.map_append, List.map_append]
  exact congrArg₂ _ (congrArg₂ _ (congrArg₂ _ h0 h1) h2) h3

/-- Settles O18: `filter_tableEntry` lists the indices in order, of which a payload has at most sixteen, and the bytes
that it leaves are ZERO_FILL. -/
theorem tableEntryProperties : Obligations.TableEntryProperties := by
  intro z x hz
  have hP := payloadLength_le x
  have hcount : ((tableEntry z x).toList.filter fun e => !e[7]).length = payloadLength x := by
    rw [filter_tableEntry hz, List.length_map, List.length_range]
  refine ⟨?order, ?bound, fun j => ⟨fun h => ?index, fun h => ?fill⟩, hcount, ?fillCount⟩
  case order =>
    rw [filter_tableEntry hz, List.map_map]
    refine (List.map_congr_left fun n hn => ?_).trans (List.map_id _)
    have := List.mem_range.mp hn
    exact Nat.mod_eq_of_lt (by omega)
  case bound =>
    intro e he hbit
    obtain ⟨k, b, rfl⟩ := exists_controlByte_of_mem_tableEntry he
    rcases Nat.lt_or_ge b (valueLength x k.val) with h | h
    · obtain ⟨n, hn, -, heq⟩ := controlByte_of_lt z h
      rw [heq, BitVec.toNat_ofNat]
      omega
    · simp [controlByte_of_le z h, hz] at hbit
  case index => rw [tableEntry_get_fin]; exact controlByte_bit7_of_lt z (k := ⟨j / 4, by omega⟩) h
  case fill => rw [tableEntry_get_fin, controlByte_of_le z h]
  case fillCount =>
    have hsplit := List.length_eq_length_filter_add (l := (tableEntry z x).toList) fun e => e[7]
    rw [Vector.length_toList, hcount] at hsplit
    rw [filter_zeroFill_tableEntry hz]
    omega

/-! ## GVTBL and GVTBRD (R124-R126) -/

/-- Settles O17: GVTBL raises no fault and builds the table, whose entries are read byte by byte. -/
theorem gvtblWritesEveryEntry : Obligations.GvtblWritesEveryEntry := by
  intro s hs
  refine ⟨buildTable s, exec_running .gvtbl hs, rfl, fun x j => ?_⟩
  rw [buildTable_tbl, shuffleTable_get_toFin, tableEntry_get_fin, controlByte]

/-- Building a table that is built changes nothing (R125). -/
theorem buildTable_of_built {s : State} (hok : TableOk s) (htv : s.tableValid = true) : buildTable s = s := by
  rw [buildTable, ← hok htv, ← htv]

/-- Settles O19: a running GVC builds the table again, which `buildTable_of_built` says is no change; a stopped one
ignores GVTBL. -/
theorem gvtblIsIdempotent : Obligations.GvtblIsIdempotent := by
  have hbuilt {s : State} (hs : s.fault = false) (hok : TableOk s) (htv : s.tableValid = true) :
      exec .gvtbl s = .next s :=
    (exec_running .gvtbl hs).trans (congrArg _ (buildTable_of_built hok htv))
  refine ⟨fun s => hbuilt, fun s t h => ?_⟩
  rcases exec_eq_next h with ⟨-, rfl⟩ | ⟨hs, rfl⟩
  · exact h
  · exact hbuilt hs (fun _ => rfl) rfl

/-- The word of GVTBRD (R71, R75). -/
theorem encode_gvtbrd (sel : Byte) : encode (.gvtbrd sel) = BitVec.ofNat 32 (4 + sel.toNat * 256) := by
  apply BitVec.eq_of_toNat_eq
  simp only [encode, commandWord_toNat, BitVec.toNat_ofNat, BitVec.reduceToNat]
  omega

/-- Byte j of sixteen bytes is byte j % 4 of lane j / 4 (R126, R140). -/
theorem wordByte_lanes (o : Bytes16) {j : Fin 16} {k : Fin 4} (h : j.val / 4 = k.val) :
    wordByte ((lanes o).get k) (j.val % 4) = o.get j := by
  have hj : 4 * k.val + j.val % 4 = j.val := by omega
  calc wordByte ((lanes o).get k) (j.val % 4)
      = wordByte (laneWord o k) (j.val % 4) := congrArg (wordByte · _) (lanes_get o k)
    _ = o[4 * k.val + j.val % 4] := wordByte_laneWord o k _ (by omega)
    _ = o.get j := by simp only [hj]; rfl

/-- Settles O20: TV decides between the copy, whose bytes are `wordByte_lanes`'s, and the fault's entry. -/
theorem gvtbrdCopiesTheEntryOrFaults : Obligations.GvtbrdCopiesTheEntryOrFaults := by
  intro s sel hs
  refine ⟨fun htv => ⟨completedState (.gvtbrd sel) s, ?copy, rfl, fun j k => wordByte_lanes _⟩, fun htv => ?fault⟩
  case copy => exact exec_of_commandFault_none hs (if_pos htv)
  case fault =>
    have hf : commandFault (.gvtbrd sel) s = some (.tableNotBuilt, 0) := if_neg (by simp [htv])
    rw [exec_of_commandFault_some hs hf, encode_gvtbrd, raiseFault, truncAW_zero]

end Sys2Proof.Machine

namespace Sys2Proof.Machine

/-! ## The shuffle of the window (R11, R141) -/

/-- Byte j of the shuffle is the shuffle of control byte j (R11). -/
theorem shuffle16_get (w ctl : Bytes16) (j : Fin 16) : (shuffle16 w ctl).get j = shuffleByte w (ctl.get j) :=
  Vector.getElem_map ..

/-- On a window of memory a control byte with bit 7 clear takes the byte that its low four bits index, whatever its
bits 6:4 (R11, log 14). -/
theorem shuffleByte_window (m : Memory) (a : Nat) (ctl : Byte) :
    shuffleByte (Memory.window m a) ctl = if ctl[7] then 0 else Memory.read m (a + ctl.toNat % 16) := by
  rw [shuffleByte, Memory.window_get, BitVec.extractLsb'_toNat, Nat.shiftRight_zero]

/-- Byte j % 4 of R[j / 4] after a completed GVDECV is the shuffle of byte j of the selector's table entry (R141). -/
theorem wordByte_completedState_gvdecv (s : State) {j : Fin 16} {k : Fin 4} (h : j.val / 4 = k.val) :
    wordByte ((completedState .gvdecv s).r.get k) (j.val % 4) =
      shuffleByte (Memory.window s.mem (s.inPtr.toNat + 1))
        ((s.tbl.get (Memory.read s.mem s.inPtr.toNat).toFin).get j) :=
  (wordByte_lanes _ h).trans (shuffle16_get _ _ _)

/-- Settles O21: each check, where the ones before it pass, decides GVDECV's fault, and `shuffleByte_window` reads off
the bytes that it completes with. -/
theorem gvdecvShufflesTheWindowOrFaults : Obligations.GvdecvShufflesTheWindowOrFaults := by
  intro s hs
  refine ⟨fun hsimd => ?illegalCmd, fun hsimd htv => ?tableNotBuilt, fun hsimd htv x hx => ?readFault,
    fun hsimd htv hok => ⟨completedState .gvdecv s, ?completes, rfl, toNat_ofNat_blockLength _,
      fun j k ctl hj hctl => ?byte⟩⟩
  case illegalCmd =>
    have hf : commandFault .gvdecv s = some (.illegalCmd, 0) := if_pos hsimd
    rw [exec_of_commandFault_some hs hf, raiseFault, truncAW_zero]
    rfl
  case tableNotBuilt =>
    have hf : commandFault .gvdecv s = some (.tableNotBuilt, 0) := by simp [commandFault, hsimd, htv]
    rw [exec_of_commandFault_some hs hf, raiseFault, truncAW_zero]
    rfl
  case readFault => exact exec_of_commandFault_some hs (commandFault_gvdecv_of_lowestDenied hsimd htv hx)
  case completes => exact exec_of_commandFault_none hs ((commandFault_gvdecv_eq_none hsimd htv).mpr hok)
  case byte => exact (wordByte_completedState_gvdecv s hj).trans (hctl ▸ shuffleByte_window ..)

/-! ## The bytes past the block (R145) -/

/-- A command that completes on a GVC that is not stopped raises no fault. -/
theorem commandFault_eq_none_of_exec {i : Instr} {s t : State} (hs : s.fault = false) (h : exec i s = .next t)
    (ht : t.fault = false) : commandFault i s = none := by
  obtain rfl := eq_commandResult_of_exec hs h
  rcases commandResult_cases i s with ⟨code, a, -, hf⟩ | ⟨hnone, -⟩
  · simp [hf] at ht
  · exact hnone

/-- Where GVDECV raises no fault, the SIMD path is present and the table is built (R141). -/
theorem hasSimd_tableValid_of_gvdecv {s : State} (h : commandFault .gvdecv s = none) :
    s.params.hasSimd = true ∧ s.tableValid = true := by
  simp only [commandFault] at h
  split_ifs at h with hsimd htv
  exact ⟨Bool.eq_true_of_not_eq_false hsimd, Bool.eq_true_of_not_eq_false htv⟩

/-- What GVDECS writes depends on the bytes of its block alone (R112). -/
theorem completedState_gvdecs_of_sameInside {s : State} {m : Memory}
    (h : sameInside s.mem m s.inPtr.toNat (blockLength (Memory.read s.mem s.inPtr.toNat))) :
    completedState .gvdecs { s with mem := m } = { completedState .gvdecs s with mem := m } := by
  simp only [completedState, read_selector_of_sameInside h, scalarValue_of_sameInside h]

/-- Settles O22: GVDECV's access check reads no memory, and with the table built its writes are GVDECS's, which
`completedState_gvdecs_of_sameInside` says are the same from both memories. -/
theorem padBytesDoNotMatter : Obligations.PadBytesDoNotMatter := by
  intro s t m htable hsame h
  refine ⟨exec_of_sameFault h rfl rfl (fun _ ht => ?stopped) (fun code a ht => ?faulted) (fun hs ht => ?completed),
    fun hs ht => ?readable⟩
  case stopped => rw [ht]
  case faulted => rw [ht]; rfl
  case completed =>
    have hnone := commandFault_eq_none_of_exec hs h (by rw [ht, completedState_fault, hs])
    obtain ⟨-, htv⟩ := hasSimd_tableValid_of_gvdecv hnone
    calc { t with mem := m }
        = { completedState .gvdecs s with mem := m } := by rw [ht, completedState_gvdecv_eq_gvdecs htable htv]
      _ = completedState .gvdecs { s with mem := m } := (completedState_gvdecs_of_sameInside hsame).symm
      _ = completedState .gvdecv { s with mem := m } :=
        (completedState_gvdecv_eq_gvdecs (s := { s with mem := m }) htable htv).symm
  case readable =>
    have hnone := commandFault_eq_none_of_exec hs h ht
    obtain ⟨hsimd, htv⟩ := hasSimd_tableValid_of_gvdecv hnone
    exact (commandFault_gvdecv_eq_none hsimd htv).mp hnone

/-! ## The two decoders side by side (R146) -/

/-- The lowest address denied in a range is the lowest one denied in any longer range from the same start. -/
theorem lowestDenied_of_le {ok : Nat → Bool} {a n n' x : Nat} (hle : n ≤ n') (h : lowestDenied ok a n x) :
    lowestDenied ok a n' x := by
  obtain ⟨hge, hlt, hdenied, hbelow⟩ := h
  exact ⟨hge, by omega, hdenied, hbelow⟩

/-- The lowest address denied in a range lies past any part of it, from its start, that is accessible throughout. -/
theorem le_of_lowestDenied {s : State} {a n n' x : Nat} (hok : allReadable s a n)
    (h : lowestDenied (readableAt s) a n' x) : a + n ≤ x := by
  obtain ⟨hge, -, hdenied, -⟩ := h
  by_contra hlt
  have hread := hok (x - a) (by omega)
  rw [Nat.add_sub_cancel' hge, hdenied] at hread
  cases hread

/-- A GVDECS that sets FAULT entered READ_FAULT at the lowest byte of its block that is not readable (R111, R153). -/
theorem exists_lowestDenied_of_gvdecs {s t : State} (hs : s.fault = false) (h : exec .gvdecs s = .next t)
    (ht : t.fault = true) :
    ∃ x, lowestDenied (readableAt s) s.inPtr.toNat (blockLength (Memory.read s.mem s.inPtr.toNat)) x ∧
      t = raiseFault .readFault x (encode .gvdecs) s := by
  obtain rfl := eq_commandResult_of_exec hs h
  obtain ⟨code, x, hf, hr⟩ := commandResult_of_faulted hs ht
  simp only [commandFault, Option.map_eq_some_iff, Prod.mk.injEq] at hf
  obtain ⟨_, hx, rfl, rfl⟩ := hf
  exact ⟨_, firstInaccessible_eq_some.mp hx, hr⟩

/-- A GVDECV that sets FAULT, with the SIMD path present and the table built, was denied one of its seventeen bytes
(R141, R143). -/
theorem exists_lowestDenied_of_gvdecv {s u : State} (hs : s.fault = false) (hsimd : s.params.hasSimd = true)
    (htv : s.tableValid = true) (h : exec .gvdecv s = .next u) (hu : u.fault = true) :
    ∃ x, lowestDenied (readableAt s) s.inPtr.toNat 17 x := by
  obtain rfl := eq_commandResult_of_exec hs h
  obtain ⟨code, x, hf, -⟩ := commandResult_of_faulted hs hu
  obtain ⟨hx, -⟩ : firstInaccessible (readableAt s) s.inPtr.toNat 17 = some x ∧ FaultCode.readFault = code := by
    simpa [commandFault, hsimd, htv] using hf
  exact ⟨x, firstInaccessible_eq_some.mp hx⟩

/-- Settles O23: the block is a first part of the window, so the lowest byte denied in it is the window's, and a byte
that only GVDECV is denied lies past it; where both complete they write the same. -/
theorem decodersAgree : Obligations.DecodersAgree := by
  intro s t u hs hsimd htv htable ht hu
  have hfault : ∀ x, lowestDenied (readableAt s) s.inPtr.toNat 17 x →
      u = raiseFault .readFault x (encode .gvdecv) s :=
    fun x hx => Host.Outcome.next.inj
      (hu.symm.trans (exec_of_commandFault_some hs (commandFault_gvdecv_of_lowestDenied hsimd htv hx)))
  refine ⟨fun hft hfu => ?bothComplete, fun hft => ?scalarFaults, fun x hx => ?simdFaults, fun hft hfu => ?onlySimd⟩
  case bothComplete =>
    rw [eq_completedState_of_exec hs hu hfu, eq_completedState_of_exec hs ht hft,
      completedState_gvdecv_eq_gvdecs htable htv]
  case scalarFaults =>
    obtain ⟨x, hx, rfl⟩ := exists_lowestDenied_of_gvdecs hs ht hft
    rw [hfault x (lowestDenied_of_le (blockLength_le _) hx)]
    exact ⟨rfl, rfl, rfl, rfl⟩
  case simdFaults =>
    rw [hfault x hx]
    exact ⟨rfl, rfl⟩
  case onlySimd =>
    obtain ⟨x, hx⟩ := exists_lowestDenied_of_gvdecv hs hsimd htv hu hfu
    have hblock := commandFault_gvdecs_eq_none.mp (commandFault_eq_none_of_exec hs ht hft)
    exact ⟨x, hx, congrArg State.faddr (hfault x hx), le_of_lowestDenied hblock hx⟩

end Sys2Proof.Machine

namespace Sys2Proof.Machine

/-! ## The causes of a fault (R150-R153) -/

/-- The fault that a command the GVC has raises: its code is that of its cause, and its address is 0 or the lowest
address denied. GVDECV's ILLEGAL_CMD is none of them, its word being no word of a GVC without the SIMD path. -/
theorem commandFault_cause {i : Instr} {s : State} {code : FaultCode} {x : Nat}
    (hwf : i.wellFormed s.params.hasSimd = true) (h : commandFault i s = some (code, x)) :
    (code = .tableNotBuilt ∧ x = 0 ∧ s.tableValid = false ∧ (i = .gvdecv ∨ ∃ sel, i = .gvtbrd sel)) ∨
    (code = .readFault ∧
      ((i = .gvdecs ∧
          lowestDenied (readableAt s) s.inPtr.toNat (blockLength (Memory.read s.mem s.inPtr.toNat)) x) ∨
        (i = .gvdecv ∧ s.tableValid = true ∧ lowestDenied (readableAt s) s.inPtr.toNat 17 x))) ∨
    (code = .writeFault ∧ i = .gvenc ∧
      lowestDenied (writableAt s) s.outPtr.toNat (quadBlockLength s.v) x) := by
  cases i with
  | gvenc =>
    simp only [commandFault, Option.map_eq_some_iff, Prod.mk.injEq] at h
    obtain ⟨_, hx, rfl, rfl⟩ := h
    exact .inr (.inr ⟨rfl, rfl, firstInaccessible_eq_some.mp hx⟩)
  | gvdecs =>
    simp only [commandFault, Option.map_eq_some_iff, Prod.mk.injEq] at h
    obtain ⟨_, hx, rfl, rfl⟩ := h
    exact .inr (.inl ⟨rfl, .inl ⟨rfl, firstInaccessible_eq_some.mp hx⟩⟩)
  | gvtbl => cases h
  | gvtbrd sel =>
    simp only [commandFault] at h
    split_ifs at h with htv
    cases h
    exact .inl ⟨rfl, rfl, Bool.eq_false_of_not_eq_true htv, .inr ⟨sel, rfl⟩⟩
  | gvdecv =>
    have hsimd : s.params.hasSimd = true := hwf
    simp only [commandFault, hsimd, Bool.true_eq_false, if_false] at h
    split_ifs at h with htv
    · cases h
      exact .inl ⟨rfl, rfl, htv, .inl rfl⟩
    · simp only [Option.map_eq_some_iff, Prod.mk.injEq] at h
      obtain ⟨_, hx, rfl, rfl⟩ := h
      exact .inr (.inl ⟨rfl, .inr ⟨rfl, Bool.eq_true_of_not_eq_false htv, firstInaccessible_eq_some.mp hx⟩⟩)

/-- Settles O8: an illegal word enters ILLEGAL_CMD, and a command that sets FAULT entered the fault whose cause
`commandFault_cause` names, its word being the one executed. -/
theorem eachFaultHasItsCause : Obligations.EachFaultHasItsCause := by
  intro s t w hs h ht
  rcases execute_cases h with ⟨hs', -⟩ | ⟨-, ⟨i, hd, rfl⟩ | ⟨e, hd, rfl⟩⟩
  · cases hs.symm.trans hs'
  · obtain ⟨rfl, hwf⟩ := decode_eq_ok_iff.mp hd
    obtain ⟨code, x, hf, hr⟩ := commandResult_of_faulted hs ht
    refine ⟨code, x, hr, .inr ?_⟩
    simpa only [hd, Except.ok.injEq] using commandFault_cause hwf hf
  · exact ⟨.illegalCmd, 0, rfl, .inl ⟨rfl, rfl, fun i hi => nomatch hd.symm.trans hi⟩⟩

/-! ## Execute and the stopped GVC (R154-R156) -/

/-- A stopped GVC ignores every word, legal or not (R154). -/
theorem execute_stopped {s : State} (w : Word) (hs : s.fault = true) : execute w s = .next s := by
  unfold execute
  split
  · rw [exec_eq, unlessFaulted_stopped _ hs]
  · exact unlessFaulted_stopped _ hs

/-- A word that decodes runs its command (R154). -/
theorem execute_of_decode {w : Word} {s : State} {i : Instr} (hd : decode s.params.hasSimd w = .ok i) :
    execute w s = exec i s := by
  simp only [execute, hd]

/-- Settles O6: Execute's three cases are `execute_stopped`, `execute_illegal` and `execute_of_decode`. -/
theorem executeChecksFaultThenDecodes : Obligations.ExecuteChecksFaultThenDecodes :=
  fun _ w => ⟨execute_stopped w, execute_illegal, fun _ _ => execute_of_decode⟩

/-- A host write to a stopped GVC changes at most V, IN_PTR and OUT_PTR (R40, R156). -/
theorem hostWrite_stopped {off : Nat} {d : Data} {s t : State} (hs : s.fault = true)
    (h : hostWrite off d s = .next t) : t = { s with v := t.v, inPtr := t.inPtr, outPtr := t.outPtr } := by
  rcases hostWrite_cases h with ⟨-, he⟩ | ⟨k, -, rfl⟩ | ⟨-, rfl⟩ | ⟨-, rfl⟩ | rfl
  · cases (execute_stopped _ hs).symm.trans he
    rfl
  all_goals rfl

/-- An action other than a reset changes at most V, IN_PTR and OUT_PTR of a stopped GVC, and beside it host memory and
the values that the host has recorded (R155, R156). -/
theorem performAction_stopped {act : Action} {s t : State} (hs : s.fault = true) (hact : act ≠ .reset)
    (h : performAction act s = .next t) :
    t = { s with v := t.v, inPtr := t.inPtr, outPtr := t.outPtr, mem := t.mem, observed := t.observed } := by
  rcases performAction_cases h with ⟨off, d, -, hw⟩ | ⟨off, -, rfl⟩ | ⟨a, -, -, rfl⟩ | ⟨a, b, -, -, rfl⟩ |
    ⟨a, -, -, rfl⟩ | ⟨hreset, -⟩
  · rw [hostWrite_stopped hs hw]
  · rfl
  · rfl
  · rfl
  · rfl
  · exact absurd hreset hact

/-- Settles O7: CMD writes are ignored by `execute_stopped`, the first waiting action keeps the record by
`performAction_stopped`, and a reset is `platformReset`. -/
theorem onlyResetClearsTheFaultRecord : Obligations.OnlyResetClearsTheFaultRecord := by
  intro s hs
  refine ⟨fun d => execute_stopped _ hs, fun t h => ⟨fun hnr => ?keeps, fun hr => ?clears⟩⟩
  case keeps =>
    cases hscript : s.script with
    | nil =>
      cases (step_ended hscript).symm.trans h
      exact ⟨hs, rfl, rfl, rfl⟩
    | cons act rest =>
      have hact : act ≠ .reset := fun ha => hnr ⟨rest, ha ▸ hscript⟩
      rw [performAction_stopped (s := { s with script := rest }) hs hact ((step_action hscript).symm.trans h)]
      exact ⟨hs, rfl, rfl, rfl⟩
  case clears =>
    obtain ⟨rest, hscript⟩ := hr
    cases (step_action hscript).symm.trans h
    exact ⟨rfl, rfl, rfl, rfl⟩

end Sys2Proof.Machine

namespace Sys2Proof.Machine

/-! ## Blocks back to back (R175) -/

/-- A command that answers FAULT = 0 ran on a GVC that was not stopped (R154). -/
theorem running_of_exec {i : Instr} {s t : State} (h : exec i s = .next t) (ht : t.fault = false) :
    s.fault = false := by
  rcases exec_eq_next h with ⟨-, rfl⟩ | ⟨hs, -⟩
  · exact ht
  · exact hs

/-- Byte j of the block that a completed GVENC leaves from OUT_PTR on (R100). -/
theorem read_gvenc_block {s t : State} (h : exec .gvenc s = .next t) (ht : t.fault = false)
    (j : Fin (blockOf s.v).length) : Memory.read t.mem (s.outPtr.toNat + j.val) = (blockOf s.v).get j := by
  rw [eq_completedState_of_exec (running_of_exec h ht) h ht]
  exact Memory.read_writeBytes_inside _ _ _ j.val j.isLt

/-- A completed GVENC leaves the bytes below OUT_PTR alone (R101). -/
theorem read_gvenc_below {s t : State} (h : exec .gvenc s = .next t) (ht : t.fault = false) {x : Nat}
    (hx : x < s.outPtr.toNat) : Memory.read t.mem x = Memory.read s.mem x := by
  rw [eq_completedState_of_exec (running_of_exec h ht) h ht]
  exact Memory.read_writeBytes_outside _ _ _ (.inl hx)

/-- A completed GVENC whose block ends below the top leaves OUT_PTR right after the block (R100). -/
theorem outPtr_of_gvenc {s t : State} (h : exec .gvenc s = .next t) (ht : t.fault = false)
    (htop : s.outPtr.toNat + quadBlockLength s.v < 2 ^ s.params.aw) :
    t.outPtr.toNat = s.outPtr.toNat + quadBlockLength s.v := by
  rw [eq_completedState_of_exec (running_of_exec h ht) h ht]
  exact (truncAW_toNat _ _).trans (Nat.mod_eq_of_lt htop)

/-- Settles O14: the second block starts where the first one ended, by `outPtr_of_gvenc`, so the first one lies below
the second command's OUT_PTR and is left alone. -/
theorem consecutiveGvencBlocksAreBackToBack : Obligations.ConsecutiveGvencBlocksAreBackToBack := by
  intro s t t' u _ h ht htop hptr hsame hu hufault
  have hstart : t'.outPtr.toNat = s.outPtr.toNat + quadBlockLength s.v := by
    rw [hptr, outPtr_of_gvenc h ht htop]
  refine ⟨fun j => ?firstBlock, fun j => hstart ▸ read_gvenc_block hu hufault j⟩
  case firstBlock =>
    have hj : j.val < quadBlockLength s.v := blockOf_length s.v ▸ j.isLt
    calc Memory.read u.mem (s.outPtr.toNat + j.val)
        = Memory.read t'.mem (s.outPtr.toNat + j.val) := read_gvenc_below hu hufault (by omega)
      _ = Memory.read t.mem (s.outPtr.toNat + j.val) := hsame j.val hj
      _ = (blockOf s.v).get j := read_gvenc_block h ht j

/-! ## Reset (R170) -/

/-- Settles O39: the state after reset is what the platform's reset makes of it, and it lists no byte of memory. -/
theorem resetMeetsTheInvariant : Obligations.ResetMeetsTheInvariant :=
  invariant_platformReset (s := State.reset) ⟨reset_memory_wf, fun _ hc => nomatch hc⟩

/-- After the platform's reset the host reads 0 from STATUS: no fault, no cause and no table (R24, R170). -/
theorem hostRead_status_platformReset (s : State) : hostRead (platformReset s) 0x08 = 0 :=
  BitVec.eq_of_toNat_eq (hostRead_status_toNat (platformReset s))

/-- What the host reads from CAPS depends on the parameters alone (R25). -/
theorem hostRead_caps_congr {s t : State} (h : t.params = s.params) : hostRead t 0x10 = hostRead s 0x10 := by
  apply BitVec.eq_of_toNat_eq
  rw [hostRead_caps_toNat, hostRead_caps_toNat, h]

/-- Settles O40: the step takes the waiting reset, which gives STATUS, FADDR and FCMD their reset values and keeps the
platform's and the host's data. -/
theorem platformResetState : Obligations.PlatformResetState := by
  intro s rest hs
  refine ⟨platformReset { s with script := rest }, step_action hs, hostRead_status_platformReset _, ?faddr, ?fcmd,
    hostRead_caps_congr rfl, rfl, rfl, rfl, rfl, rfl⟩
  case faddr => exact hostRead_regOffset _ .faddr
  case fcmd => exact hostRead_regOffset _ .fcmd

end Sys2Proof.Machine
